-- ==== Sys2Proof/Word.lean ====
section
/-!
DEFINITION. Word.lean: the machine's words. Every value is unsigned (spec/00_scope.md R12).
-/

namespace Sys2Proof

/-- A memory byte, a general register, a timer, an 8-bit immediate (R5, R20, R32, R72). -/
abbrev Byte := BitVec 8

/-- An instruction word, the instruction pointer, the address register, a return address (R28, R31, R35, R70). -/
abbrev Word := BitVec 16

/-- One of the four nibbles `a`, `b`, `c`, `d` of an instruction word (R11); also the row count `n` and a key code. -/
abbrev Nibble := BitVec 4

/-- The 12-bit address operand `nnn` (R72). -/
abbrev Addr := BitVec 12

/-- The index of a general register, always 0 to 15 (R20, R21). -/
abbrev Reg := Fin 16

end Sys2Proof
end

