-- ==== Sys2Proof/Config.lean ====
section
/-!
DEFINITION. Config.lean: the fixed parameters of spec/00_scope.md R5 and the free values. A free value is an opaque
constant with no body: no proof can see what it is, so a theorem holds whatever the hardware or its host supplies.
-/

namespace Sys2Proof.Config

/-- `MEM_SIZE` (R5): memory is addresses 0 to 4095. -/
@[simp] abbrev memSize : Nat := 4096

/-- `LOAD_ADDR` (R5): where a program is loaded and where the instruction pointer starts (R231). -/
@[simp] abbrev loadAddr : Nat := 0x200

/-- `LOAD_CAPACITY` (R5): bytes of a program image that fit. -/
@[simp] abbrev loadCapacity : Nat := 3584

/-- `FB_COLS` (R5). -/
@[simp] abbrev fbCols : Nat := 64

/-- `FB_ROWS` (R5). -/
@[simp] abbrev fbRows : Nat := 32

/-- `FB_CELLS` (R5). -/
@[simp] abbrev fbCells : Nat := 2048

/-- FREE VALUE, DESIGN CHOICE, log 7: the byte the `n`-th draw from the random source gives (the input `rnd` of R9,
R131, D19: unconstrained and fresh at every execution). -/
opaque rnd : Nat → BitVec 8

/-- FREE VALUE, DESIGN CHOICE, log 8: the key code the host answers, 0 to 15 (R164, D20). -/
opaque key : Nat → BitVec 4

/-- FREE VALUE, DESIGN CHOICE, log 8: whether a host that has been asked for a key answers now or lets the core wait on; it
may never answer (spec/45_keys.md R166). -/
opaque answered : Nat → Bool

/-- FREE VALUE, DESIGN CHOICE, log 8: the host's answer to "is this key currently held" (R165, D20). -/
opaque held : Nat → Bool

end Sys2Proof.Config
end

