-- ==== Sys2Proof/Syntax.lean ====
section
/-!
DEFINITION. Syntax.lean: the instructions, one constructor per row of spec/opcode_table.json, in the order of
spec/30_encoding.md R74. Operands are the fields of R72: `x`, `y` register indices, `nn` an immediate, `nnn` an
address, `n` a row count.
-/

namespace Sys2Proof

/-- The 35 instruction shapes (R74). -/
inductive Instr where
  /-- 00E0 `CLS`: clear the framebuffer (R150). -/
  | cls
  /-- 00EE `RET`: return from subroutine (R100). -/
  | ret
  /-- 0NNN `SYS nnn`: the legacy escape, a call (R101). -/
  | sys (nnn : Addr)
  /-- 1NNN `JP nnn`: jump (R102). -/
  | jp (nnn : Addr)
  /-- 2NNN `CALL nnn`: call subroutine (R103). -/
  | call (nnn : Addr)
  /-- 3XNN `SE Vx, nn`: skip if equal to immediate (R110). -/
  | seImm (x : Reg) (nn : Byte)
  /-- 4XNN `SNE Vx, nn`: skip if not equal to immediate (R111). -/
  | sneImm (x : Reg) (nn : Byte)
  /-- 5XY0 `SE Vx, Vy`: skip if registers equal (R112). -/
  | seReg (x y : Reg)
  /-- 6XNN `LD Vx, nn`: load immediate (R120). -/
  | ldImm (x : Reg) (nn : Byte)
  /-- 7XNN `ADD Vx, nn`: add immediate, no flag (R121). -/
  | addImm (x : Reg) (nn : Byte)
  /-- 8XY0 `LD Vx, Vy`: move (R122). -/
  | ldReg (x y : Reg)
  /-- 8XY1 `OR Vx, Vy` (R123). -/
  | orReg (x y : Reg)
  /-- 8XY2 `AND Vx, Vy` (R124). -/
  | andReg (x y : Reg)
  /-- 8XY3 `XOR Vx, Vy` (R125). -/
  | xorReg (x y : Reg)
  /-- 8XY4 `ADD Vx, Vy`: add with carry out (R126). -/
  | addReg (x y : Reg)
  /-- 8XY5 `SUB Vx, Vy`: subtract, the flag is the borrow (R127). -/
  | subReg (x y : Reg)
  /-- 8XY6 `SHR Vx, Vy`: shift register y right by one into register x (R128). -/
  | shr (x y : Reg)
  /-- 8XY7 `SUBN Vx, Vy`: reverse subtract, the flag is the borrow (R129). -/
  | subn (x y : Reg)
  /-- 8XYE `SHL Vx, Vy`: shift register y left by one into register x (R130). -/
  | shl (x y : Reg)
  /-- 9XY0 `SNE Vx, Vy`: skip if registers differ (R113). -/
  | sneReg (x y : Reg)
  /-- ANNN `LD I, nnn`: load the address register (R140). -/
  | ldI (nnn : Addr)
  /-- BNNN `JP V0, nnn`: jump with offset (R104). -/
  | jpV0 (nnn : Addr)
  /-- CXNN `RND Vx, nn`: random byte under mask (R131). -/
  | rnd (x : Reg) (nn : Byte)
  /-- DXYN `DRW Vx, Vy, n`: draw a sprite (R151). -/
  | drw (x y : Reg) (n : Nibble)
  /-- EX9E `SKP Vx`: skip if the key in register x is held (R161). -/
  | skp (x : Reg)
  /-- EXA1 `SKNP Vx`: skip if the key in register x is not held (R162). -/
  | sknp (x : Reg)
  /-- FX07 `LD Vx, DT`: read the delay timer (R170). -/
  | ldVxDt (x : Reg)
  /-- FX0A `LD Vx, K`: wait for a key (R163). -/
  | ldVxK (x : Reg)
  /-- FX15 `LD DT, Vx`: set the delay timer (R171). -/
  | ldDtVx (x : Reg)
  /-- FX18 `LD ST, Vx`: set the sound timer (R172). -/
  | ldStVx (x : Reg)
  /-- FX1E `ADD I, Vx`: add to the address register (R141). -/
  | addI (x : Reg)
  /-- FX29 `LD F, Vx`: address of a glyph (R142). -/
  | ldF (x : Reg)
  /-- FX33 `LD B, Vx`: store decimal digits (R143). -/
  | ldB (x : Reg)
  /-- FX55 `LD [I], Vx`: store registers 0 to x (R144). -/
  | storeRegs (x : Reg)
  /-- FX65 `LD Vx, [I]`: load registers 0 to x (R145). -/
  | loadRegs (x : Reg)
  deriving DecidableEq, Repr

end Sys2Proof
end

