-- ==== Sys2Proof/WellFormed.lean ====
section
/-!
DEFINITION. WellFormed.lean: which terms of `Instr` an instruction word stands for. Every operand value is legal
(every field is a nibble, a byte or a 12-bit address) but for the two addresses that 0NNN leaves to 00E0 and 00EE.
-/

namespace Sys2Proof

/-- `SYS nnn` excludes the two words that select 00E0 and 00EE (spec/30_encoding.md R73, spec/40_control_flow.md R101);
all other operands are unrestricted. -/
def Instr.wellFormed : Instr → Bool
  | .sys nnn => nnn != 0x0E0#12 && nnn != 0x0EE#12
  | _ => true

end Sys2Proof
end

