-- ==== Sys2Proof/Decode.lean ====
section
/-!
DEFINITION. Decode.lean: the decoder of spec/30_encoding.md R70 to R75, total on every 16-bit word, and the encoder
written from the same rules. A word that selects no row is `none`: the executor raises IllegalInstruction (R75).
-/

namespace Sys2Proof

/-- The register index a nibble names (R72). -/
def regOfNibble (b : Nibble) : Reg := ⟨b.toNat, b.isLt⟩

/-- The nibble that names a register. -/
def nibbleOfReg (x : Reg) : Nibble := BitVec.ofFin x

/-- Nibble `a`, bits 15:12 (R11). -/
def opNibble (w : Word) : Nibble := w.extractLsb' 12 4

/-- Operand `x`, bits 11:8 (R72). -/
def fieldX (w : Word) : Reg := regOfNibble (w.extractLsb' 8 4)

/-- Operand `y`, bits 7:4 (R72). -/
def fieldY (w : Word) : Reg := regOfNibble (w.extractLsb' 4 4)

/-- Nibble `d`, bits 3:0: the count `n` of DXYN, the sub-opcode of form XY (R71, R72). -/
def fieldN (w : Word) : Nibble := w.extractLsb' 0 4

/-- Operand `nn`, bits 7:0 (R72). -/
def fieldNN (w : Word) : Byte := w.extractLsb' 0 8

/-- Operand `nnn`, bits 11:0 (R72). -/
def fieldNNN (w : Word) : Addr := w.extractLsb' 0 12

/-- The two fixed words of class 0 come before the 0NNN row (R73). -/
def decodeClass0 (w : Word) : Instr :=
  if w = 0x00E0#16 then .cls else if w = 0x00EE#16 then .ret else .sys (fieldNNN w)

/-- Class 8: the row is selected by nibble `d`; 8 to D and F select none (R74, R75). -/
def decodeClass8 (x y : Reg) (d : Nibble) : Option Instr :=
  match d.toNat with
  | 0x0 => some (.ldReg x y)
  | 0x1 => some (.orReg x y)
  | 0x2 => some (.andReg x y)
  | 0x3 => some (.xorReg x y)
  | 0x4 => some (.addReg x y)
  | 0x5 => some (.subReg x y)
  | 0x6 => some (.shr x y)
  | 0x7 => some (.subn x y)
  | 0xE => some (.shl x y)
  | _ => none

/-- Class E: the row is selected by the low byte (R74, R75). -/
def decodeClassE (x : Reg) (nn : Byte) : Option Instr :=
  match nn.toNat with
  | 0x9E => some (.skp x)
  | 0xA1 => some (.sknp x)
  | _ => none

/-- Class F: the row is selected by the low byte (R74, R75). -/
def decodeClassF (x : Reg) (nn : Byte) : Option Instr :=
  match nn.toNat with
  | 0x07 => some (.ldVxDt x)
  | 0x0A => some (.ldVxK x)
  | 0x15 => some (.ldDtVx x)
  | 0x18 => some (.ldStVx x)
  | 0x1E => some (.addI x)
  | 0x29 => some (.ldF x)
  | 0x33 => some (.ldB x)
  | 0x55 => some (.storeRegs x)
  | 0x65 => some (.loadRegs x)
  | _ => none

/-- The decoder: the row of R74 that a word selects, by the leading nibble first (R73); `none` for the illegal words
of R75. -/
def decode (w : Word) : Option Instr :=
  match (opNibble w).toNat with
  | 0x0 => some (decodeClass0 w)
  | 0x1 => some (.jp (fieldNNN w))
  | 0x2 => some (.call (fieldNNN w))
  | 0x3 => some (.seImm (fieldX w) (fieldNN w))
  | 0x4 => some (.sneImm (fieldX w) (fieldNN w))
  | 0x5 => if fieldN w = 0x0#4 then some (.seReg (fieldX w) (fieldY w)) else none
  | 0x6 => some (.ldImm (fieldX w) (fieldNN w))
  | 0x7 => some (.addImm (fieldX w) (fieldNN w))
  | 0x8 => decodeClass8 (fieldX w) (fieldY w) (fieldN w)
  | 0x9 => if fieldN w = 0x0#4 then some (.sneReg (fieldX w) (fieldY w)) else none
  | 0xA => some (.ldI (fieldNNN w))
  | 0xB => some (.jpV0 (fieldNNN w))
  | 0xC => some (.rnd (fieldX w) (fieldNN w))
  | 0xD => some (.drw (fieldX w) (fieldY w) (fieldN w))
  | 0xE => decodeClassE (fieldX w) (fieldNN w)
  | _ => decodeClassF (fieldX w) (fieldNN w)

/-- A word from its two bytes: the byte at the lower address is the high byte (spec/20_memory.md R51). -/
def wordOfBytes (hi lo : Byte) : Word := hi ++ lo

/-- The high byte of a word, stored at the lower address (R51). -/
def highByte (w : Word) : Byte := w.extractLsb' 8 8

/-- The low byte of a word, stored at the higher address (R51). -/
def lowByte (w : Word) : Byte := w.extractLsb' 0 8

/-- The instruction at the head of a byte sequence and the bytes after it: every instruction is two bytes (R70). -/
def decodeBytes : List Byte → Option (Instr × List Byte)
  | hi :: lo :: rest => (decode (wordOfBytes hi lo)).map (fun i => (i, rest))
  | _ => none

/-- Form A: opcode nibble and 12-bit address (R71). -/
def encodeA (op : Nibble) (nnn : Addr) : Word := op ++ nnn

/-- Form XI: opcode nibble, register and 8-bit immediate; form X with the low byte as sub-opcode (R71). -/
def encodeXI (op : Nibble) (x : Reg) (nn : Byte) : Word := op ++ nibbleOfReg x ++ nn

/-- Forms XY and XYN: opcode nibble, two registers and nibble `d` (R71). -/
def encodeXY (op : Nibble) (x y : Reg) (d : Nibble) : Word := op ++ nibbleOfReg x ++ nibbleOfReg y ++ d

/-- The word of an instruction, from the encoding column of R74. -/
def encode : Instr → Word
  | .cls => 0x00E0#16
  | .ret => 0x00EE#16
  | .sys nnn => encodeA 0x0 nnn
  | .jp nnn => encodeA 0x1 nnn
  | .call nnn => encodeA 0x2 nnn
  | .seImm x nn => encodeXI 0x3 x nn
  | .sneImm x nn => encodeXI 0x4 x nn
  | .seReg x y => encodeXY 0x5 x y 0x0
  | .ldImm x nn => encodeXI 0x6 x nn
  | .addImm x nn => encodeXI 0x7 x nn
  | .ldReg x y => encodeXY 0x8 x y 0x0
  | .orReg x y => encodeXY 0x8 x y 0x1
  | .andReg x y => encodeXY 0x8 x y 0x2
  | .xorReg x y => encodeXY 0x8 x y 0x3
  | .addReg x y => encodeXY 0x8 x y 0x4
  | .subReg x y => encodeXY 0x8 x y 0x5
  | .shr x y => encodeXY 0x8 x y 0x6
  | .subn x y => encodeXY 0x8 x y 0x7
  | .shl x y => encodeXY 0x8 x y 0xE
  | .sneReg x y => encodeXY 0x9 x y 0x0
  | .ldI nnn => encodeA 0xA nnn
  | .jpV0 nnn => encodeA 0xB nnn
  | .rnd x nn => encodeXI 0xC x nn
  | .drw x y n => encodeXY 0xD x y n
  | .skp x => encodeXI 0xE x 0x9E
  | .sknp x => encodeXI 0xE x 0xA1
  | .ldVxDt x => encodeXI 0xF x 0x07
  | .ldVxK x => encodeXI 0xF x 0x0A
  | .ldDtVx x => encodeXI 0xF x 0x15
  | .ldStVx x => encodeXI 0xF x 0x18
  | .addI x => encodeXI 0xF x 0x1E
  | .ldF x => encodeXI 0xF x 0x29
  | .ldB x => encodeXI 0xF x 0x33
  | .storeRegs x => encodeXI 0xF x 0x55
  | .loadRegs x => encodeXI 0xF x 0x65

/-- The bytes of an instruction as memory holds them, big-endian (R51). -/
def encodeBytes (i : Instr) : List Byte := [highByte (encode i), lowByte (encode i)]

/-- The word a table row's bits give: the low `nbits` bits of `w`, every higher bit 0. Instructions are one word. -/
def tableWord (nbits w : Nat) : Word := BitVec.ofNat 16 (w % 2 ^ nbits)

/-- The instruction the decoder reads from a table row's bits, laid out in memory as the hardware stores them. -/
def decodeTableWord (nbits w : Nat) : Option Instr :=
  (decodeBytes [highByte (tableWord nbits w), lowByte (tableWord nbits w)]).map Prod.fst

end Sys2Proof
end

