-- ==== Sys2Proof/Machine/State.lean ====
section
/-!
DEFINITION. Machine/State.lean: the machine's state as plain data (spec/10_state.md), the reasons a step can stop, and
the state after reset (spec/70_reset_and_hazards.md R230).
-/

namespace Sys2Proof.Machine

/-- The six fatal conditions, each with its payload (spec/60_exceptions.md R200). -/
inductive Fatal where
  /-- Code 1: a register operand index above 15; nothing raises it, every index is a nibble (R201). -/
  | invalidRegister (index : Nat)
  /-- Code 2: 00EE with an empty stack (R202). -/
  | returnOutsideSubroutine
  /-- Code 3: the word selects no row of the opcode map (R203). -/
  | illegalInstruction (w : Word)
  /-- Code 4: FX29 with `V[x] > 15` (R204). -/
  | invalidFontCodePoint (value : Byte)
  /-- Code 5: a set sprite bit at linear offset 2048 or more (R205). -/
  | drawingOutOfBounds (offset : Nat)
  /-- Code 6: an address of 4096 or more would be accessed (R207; the spec's own condition, D6, log 14). -/
  | memoryOutOfBounds (addr : Nat)
  deriving DecidableEq, Repr

/-- The three suspending outcomes (spec/45_keys.md R160 to R163). -/
inductive SuspendKind where
  | waitForKey
  | skipIfPressed
  | skipIfNotPressed
  deriving DecidableEq, Repr

/-- The run-state latch (spec/10_state.md R38, the spec's own rendering, D2). -/
inductive Status where
  | running
  | pending (kind : SuspendKind) (x : Reg)
  | halted (err : Fatal)
  deriving DecidableEq, Repr

/-- What one `Cycle` event returns (spec/00_scope.md R17). -/
inductive CycleResult where
  | ok
  | suspend (kind : SuspendKind) (x : Reg)
  | fatal (err : Fatal)
  deriving DecidableEq, Repr

/-- The closed set of interface events (spec/00_scope.md R9). The `rnd` input of `Cycle` is drawn where CXNN reads it
(log 7). -/
inductive Event where
  | reset
  | load (bytes : List Byte)
  | cycle
  | resolveKey (k : Nibble)
  | resolveSkip (held : Bool)
  | tick
  | readOut
  deriving DecidableEq, Repr

/-- Memory: (address, byte) pairs, addresses strictly rising, no entry equal to what an unlisted address reads as
(`Mem.initial`). `Mem.wf` says so. -/
abbrev Mem := List Host.Cell

/-- The framebuffer: 32 rows of 64 one-bit cells; column `c` of a row is bit `c` (spec/10_state.md R37, log 16). -/
abbrev Frame := Vector (BitVec 64) 32

/-- The parameters `INIT` and `FONT` that the source leaves open (spec/00_scope.md R6, D16, D17): what a `Reset` puts into
the machine. -/
structure Init where
  /-- `INIT.V`. -/
  v : Vector Byte 16
  /-- `INIT.I`. -/
  i : Word
  /-- `INIT.DT`. -/
  dt : Byte
  /-- `INIT.ST`. -/
  st : Byte
  /-- `INIT.FB`. -/
  fb : Frame
  /-- `FONT` at [0, 80) and `INIT.MEM` at [80, 4096), in memory's canonical form: the bytes that differ from the spec's
  defaults (`Init.withMemory` takes all 4096). -/
  mem : Mem
  deriving DecidableEq, Repr

/-- The spec's default parameters: all zero (D16, log 1, log 2, log 4), and the glyph table of R33 (D17, log 3), which is
what unlisted memory reads as. -/
def Init.default : Init where
  v := Vector.replicate 16 0
  i := 0
  dt := 0
  st := 0
  fb := Vector.replicate 32 0
  mem := []

/-- The whole state of CORE (spec/10_state.md R20 to R39), the parameters of the machine (`init`), and two fields of the
model's own (`script`, `draws`). -/
structure State where
  /-- `V[0]` to `V[15]`; `V[15]` is the flag register (R20, R25). -/
  v : Vector Byte 16
  /-- The address register `I` (R31). -/
  i : Word
  /-- The instruction pointer (R28). -/
  ip : Word
  /-- The delay timer (R32). -/
  dt : Byte
  /-- The sound timer (R32). -/
  st : Byte
  /-- The 4096-byte memory (R33, R34). -/
  mem : Mem
  /-- The call stack, most recently pushed value first (R35, log 15). -/
  stack : List Word
  /-- The framebuffer (R37). -/
  fb : Frame
  /-- The run-state latch (R38). -/
  status : Status
  /-- Neither `Load` nor `Cycle` has been issued since `Reset`, so `Load` is enabled (R9, R232, U12, log 10). -/
  loadOpen : Bool
  /-- The machine's `INIT` and `FONT`, which no step changes (R6, log 32). -/
  init : Init
  /-- MODEL's own: the events the host issues next, in order (R9, R174, log 9). -/
  script : List Event
  /-- MODEL's own: how many free values have been drawn (log 7, log 8). -/
  draws : Nat
  deriving DecidableEq, Repr

/-- Why a step stops. -/
inductive Fault where
  /-- Raised by `step` when the core is halted by a fatal condition and the script holds no further event. SAFE: no
  event but `Reset`, `Tick` and read-out is enabled then (R208), so nothing the hardware does is left out but those
  three, which the script supplies. -/
  | halted (err : Fatal)
  /-- Raised by `event` when the host issues an event that R9 does not enable (U8, U12). SAFE: the spec gives such an
  event no move. -/
  | notEnabled (e : Event)
  deriving DecidableEq, Repr

/-- Why an instruction is refused. -/
inductive Refusal where
  /-- Raised by `exec`'s arm of an instruction that has no meaning yet; every instruction has one, so nothing raises
  it. SAFE: a refused instruction proves nothing. -/
  | notModelled (mnemonic : String)
  deriving DecidableEq, Repr

/-- The machine right after reset (R230) with the spec's default parameters: `ip` is the spec's; registers, timers and
framebuffer are zero (DESIGN CHOICE, D16, log 1, log 2); memory lists nothing and so reads as its reset contents
(log 3, log 4); the stack is empty and the status `running` (D16, D2, log 5). -/
def State.reset : State where
  v := Vector.replicate 16 0
  i := 0
  ip := 0x0200
  dt := 0
  st := 0
  mem := []
  stack := []
  fb := Vector.replicate 32 0
  status := .running
  loadOpen := true
  init := Init.default
  script := []
  draws := 0

end Sys2Proof.Machine
end

