-- ==== Sys2Proof/Machine/Ops.lean ====
section
/-!
DEFINITION. Machine/Ops.lean: the named operations over memory, registers, the stack, the framebuffer and the status
latch, among them raising a fatal condition (spec/60_exceptions.md R206) and suspending (spec/45_keys.md R160).
-/

namespace Sys2Proof.Machine

/-! ### Memory -/

/-- The default `FONT`: 16 glyphs of 5 bytes, the table of spec/10_state.md R33. PRESUMED, log 3: the source lists no
bytes (N2); the spec supplies them from general knowledge (D17, G1). -/
def glyphTable : List Byte :=
  [0xF0, 0x90, 0x90, 0x90, 0xF0] ++ [0x20, 0x60, 0x20, 0x20, 0x70] ++
  [0xF0, 0x10, 0xF0, 0x80, 0xF0] ++ [0xF0, 0x10, 0xF0, 0x10, 0xF0] ++
  [0x90, 0x90, 0xF0, 0x10, 0x10] ++ [0xF0, 0x80, 0xF0, 0x10, 0xF0] ++
  [0xF0, 0x80, 0xF0, 0x90, 0xF0] ++ [0xF0, 0x10, 0x20, 0x40, 0x40] ++
  [0xF0, 0x90, 0xF0, 0x90, 0xF0] ++ [0xF0, 0x90, 0xF0, 0x10, 0xF0] ++
  [0xF0, 0x90, 0xF0, 0x90, 0x90] ++ [0xE0, 0x90, 0xE0, 0x90, 0xE0] ++
  [0xF0, 0x80, 0x80, 0x80, 0xF0] ++ [0xE0, 0x90, 0x90, 0x90, 0xE0] ++
  [0xF0, 0x80, 0xF0, 0x80, 0xF0] ++ [0xF0, 0x80, 0xF0, 0x80, 0x80]

/-- What an unlisted address reads as: the reset contents (R34), the glyphs at [0, 80) and 0 elsewhere (DESIGN CHOICE,
`INIT.MEM`'s default, D16, log 4). -/
def Mem.initial (a : Nat) : Byte := glyphTable.getD a 0

/-- The byte at an address. -/
def Mem.read : Mem → Nat → Byte
  | [], a => Mem.initial a
  | c :: m, a => if c.1 = a then c.2 else Mem.read m a

/-- Memory without an entry for an address. -/
def Mem.erase (m : Mem) (a : Nat) : Mem := m.filter (fun c => c.1 != a)

/-- Put an entry before the first one with a higher address. -/
def Mem.insert : Mem → Nat → Byte → Mem
  | [], a, b => [(a, b)]
  | c :: m, a, b => if a < c.1 then (a, b) :: c :: m else c :: Mem.insert m a b

/-- Store one byte, keeping the canonical form. -/
def Mem.write (m : Mem) (a : Nat) (b : Byte) : Mem :=
  if b = Mem.initial a then Mem.erase m a else Mem.insert (Mem.erase m a) a b

/-- Store bytes at consecutive addresses, the first at the lowest (R52). -/
def Mem.writeBytes : Mem → Nat → List Byte → Mem
  | m, _, [] => m
  | m, a, b :: bs => Mem.writeBytes (Mem.write m a b) (a + 1) bs

/-- The canonical form: addresses strictly rising and inside memory, no entry that an unlisted address already reads
as. -/
abbrev Mem.wf (m : Mem) : Prop :=
  m.Pairwise (fun c d => c.1 < d.1) ∧ ∀ c ∈ m, c.1 < Config.memSize ∧ c.2 ≠ Mem.initial c.1

/-- `MemRead(addr, 1)`: the byte, or MemoryOutOfBounds for an address that does not exist (R14). -/
def State.memRead (s : State) (a : Nat) : Except Fatal Byte :=
  if Config.memSize ≤ a then .error (.memoryOutOfBounds a) else .ok (Mem.read s.mem a)

/-! ### Registers -/

/-- `V[x]` (R20). -/
def State.reg (s : State) (x : Reg) : Byte := s.v[x]

/-- `V[x] <- b` (R20). -/
def State.setReg (s : State) (x : Reg) (b : Byte) : State := { s with v := s.v.set x b }

/-- The index of the flag register `V[15]` (R25). -/
abbrev flagReg : Reg := 15

/-! ### The instruction pointer and the call stack -/

/-- `ip <- (ip + 2) mod 65536`: the fetch's advance and a skip's extra step (R29, R30). -/
def State.advance (s : State) : State := { s with ip := s.ip + 2 }

/-- A skip: the extra step under a condition (spec/41_skip.md R114). -/
def State.skipIf (s : State) (cond : Bool) : State := if cond then s.advance else s

/-- `ip <- target`. -/
def State.jump (s : State) (target : Word) : State := { s with ip := target }

/-- `push(stack, ip); ip <- target`: the call of 0NNN and 2NNN (R101, R103). -/
def State.call (s : State) (target : Word) : State := { s with stack := s.ip :: s.stack, ip := target }

/-! ### The status latch -/

/-- `raise E(info)` (R206): what was written stays, the latch records the condition. It is the whole of taking a fatal
condition: no vector, nothing saved, no return (R208). -/
def State.raise (s : State) (e : Fatal) : State := { s with status := .halted e }

/-- `suspend K(x)` (R160): the latch records the outcome, nothing else changes. -/
def State.suspend (s : State) (k : SuspendKind) (x : Reg) : State := { s with status := .pending k x }

/-- The end of a suspension, `status <- Running` (R164, R165): the nearest this machine has to a return. -/
def State.resume (s : State) : State := { s with status := .running }

/-- The code of a fatal condition (R200, the spec's own numbers, D4). -/
def Fatal.code : Fatal → Nat
  | .invalidRegister _ => 1
  | .returnOutsideSubroutine => 2
  | .illegalInstruction _ => 3
  | .invalidFontCodePoint _ => 4
  | .drawingOutOfBounds _ => 5
  | .memoryOutOfBounds _ => 6

/-- What the `Cycle` that led to this state returned (R17): the latch holds the outcome or the condition (D2). -/
def State.cycleResult (s : State) : CycleResult :=
  match s.status with
  | .running => .ok
  | .pending k x => .suspend k x
  | .halted e => .fatal e

/-! ### The framebuffer -/

/-- Cell `FB[off]`, `off = 64 * row + col` (R37); an offset of 2048 or more names no cell and reads as off. -/
def Frame.cell (fb : Frame) (off : Nat) : Bool :=
  (fb[off / Config.fbCols]?.getD 0).getLsbD (off % Config.fbCols)

/-- `FB[off] <- FB[off] ^ 1` (R151). -/
def Frame.toggle (fb : Frame) (off : Nat) : Frame :=
  fb.setIfInBounds (off / Config.fbCols)
    (fb[off / Config.fbCols]?.getD 0 ^^^ BitVec.twoPow 64 (off % Config.fbCols))

/-- The all-zero framebuffer (R150). -/
def Frame.clear : Frame := Vector.replicate 32 0

/-- The host's read-out of one cell (R154). -/
def State.cell (s : State) (off : Nat) : Bool := Frame.cell s.fb off

/-! ### Fetch -/

/-- The instruction word at `ip`, big-endian (R51), or MemoryOutOfBounds when either byte lies outside memory (R53). -/
def State.fetch (s : State) : Except Fatal Word :=
  match s.memRead s.ip.toNat, s.memRead (s.ip.toNat + 1) with
  | .ok hi, .ok lo => .ok (wordOfBytes hi lo)
  | .error e, _ => .error e
  | _, .error e => .error e

/-- Memory with an instruction word stored at an address, big-endian (R51). -/
def Mem.writeWord (m : Mem) (a : Nat) (w : Word) : Mem := Mem.writeBytes m a [highByte w, lowByte w]

end Sys2Proof.Machine
end

