-- ==== Sys2Proof/Machine/Operands.lean ====
section
/-!
DEFINITION. Machine/Operands.lean: what operands stand for: zero-extended addresses, the one addressing mode (register
indirect through `I` with an ascending offset, spec/43_address_memory.md R146), the range check of the block
instructions (spec/20_memory.md R63), decimal digits, and sprite rows.
-/

namespace Sys2Proof.Machine

/-- `nnn` zero-extended to 16 bits (R72). -/
def addrWord (nnn : Addr) : Word := nnn.setWidth 16

/-- `V[0] + nnn` (R104): at most 4350, so 16 bits hold it. -/
def State.offsetTarget (s : State) (nnn : Addr) : Word := (s.reg 0).setWidth 16 + addrWord nnn

/-- The effective address `I + k`, a natural number, never reduced (R54, D7). -/
def State.effAddr (s : State) (k : Nat) : Nat := s.i.toNat + k

/-- The range check of FX33, FX55 and FX65: when the last address `I + k` lies outside memory, MemoryOutOfBounds of the
lowest address of the range that does (R63). -/
def State.blockFault (s : State) (k : Nat) : Option Fatal :=
  if Config.memSize ≤ s.effAddr k then some (.memoryOutOfBounds (max s.i.toNat Config.memSize)) else none

/-- The address of a glyph, `5 * V[x]` (R142). -/
def glyphAddr (b : Byte) : Word := BitVec.ofNat 16 (5 * b.toNat)

/-- The three decimal digits of a byte, hundreds first (R143). -/
def decimalDigits (b : Byte) : List Byte :=
  [BitVec.ofNat 8 (b.toNat / 100), BitVec.ofNat 8 (b.toNat / 10 % 10), BitVec.ofNat 8 (b.toNat % 10)]

/-- The bytes FX55 stores: `V[0]` to `V[x]`, in order (R144). -/
def State.regBytes (s : State) (x : Reg) : List Byte := s.v.toList.take (x.val + 1)

/-- The registers after FX65: `V[0]` to `V[x]` from consecutive bytes at `I`, the others unchanged (R145). -/
def State.loadedRegs (s : State) (x : Reg) : Vector Byte 16 :=
  Vector.ofFn (fun r : Fin 16 => if r.val ≤ x.val then Mem.read s.mem (s.effAddr r.val) else s.reg r)

/-- The linear offsets of the set bits of one sprite row, most significant bit first: bit `7 - c` is column `c`
(R151). `start` is the offset of column 0. -/
def rowOffsets (b : Byte) (start : Nat) : List Nat :=
  ((List.range 8).filter (fun c => b.getLsbD (7 - c))).map (fun c => start + c)

end Sys2Proof.Machine
end

