-- ==== Sys2Proof/Machine/AddressMemory.lean ====
section
/-!
DEFINITION. Machine/AddressMemory.lean: ANNN, FX1E, FX29, FX33, FX55, FX65 (spec/43_address_memory.md).
-/

namespace Sys2Proof.Machine

/-- ANNN (R140). -/
def execLdI (nnn : Addr) (s : State) : Host.Outcome State Fault Refusal := .next { s with i := addrWord nnn }

/-- FX1E (R141): modulo 65536, not masked to 12 bits, no flag (D15, log 21). -/
def execAddI (x : Reg) (s : State) : Host.Outcome State Fault Refusal :=
  .next { s with i := s.i + (s.reg x).setWidth 16 }

/-- FX29 (R142): InvalidFontCodePoint above 15 (R204), `I` then unchanged. -/
def execLdF (x : Reg) (s : State) : Host.Outcome State Fault Refusal :=
  if 15 < (s.reg x).toNat then .next (s.raise (.invalidFontCodePoint (s.reg x)))
  else .next { s with i := glyphAddr (s.reg x) }

/-- FX33 (R143): the range is checked before any byte is written (R63). -/
def execLdB (x : Reg) (s : State) : Host.Outcome State Fault Refusal :=
  match s.blockFault 2 with
  | some e => .next (s.raise e)
  | none => .next { s with mem := Mem.writeBytes s.mem (s.effAddr 0) (decimalDigits (s.reg x)) }

/-- FX55 (R144): `I` is not changed (D15, log 21). -/
def execStoreRegs (x : Reg) (s : State) : Host.Outcome State Fault Refusal :=
  match s.blockFault x.val with
  | some e => .next (s.raise e)
  | none => .next { s with mem := Mem.writeBytes s.mem (s.effAddr 0) (s.regBytes x) }

/-- FX65 (R145): `I` is not changed (D15, log 21). -/
def execLoadRegs (x : Reg) (s : State) : Host.Outcome State Fault Refusal :=
  match s.blockFault x.val with
  | some e => .next (s.raise e)
  | none => .next { s with v := s.loadedRegs x }

end Sys2Proof.Machine
end

