-- ==== Sys2Proof/Machine/ControlFlow.lean ====
section
/-!
DEFINITION. Machine/ControlFlow.lean: 00EE, 0NNN, 1NNN, 2NNN, BNNN (spec/40_control_flow.md). On entry `ip` is the
instruction's address plus 2 (R29).
-/

namespace Sys2Proof.Machine

/-- 00EE (R100): pop the stack into `ip`; with an empty stack, ReturnOutsideSubroutine (R202). -/
def execRet (s : State) : Host.Outcome State Fault Refusal :=
  match s.stack with
  | [] => .next (s.raise .returnOutsideSubroutine)
  | a :: rest => .next { s with stack := rest, ip := a }

/-- 0NNN (R101): a call, the same transition as 2NNN. -/
def execSys (nnn : Addr) (s : State) : Host.Outcome State Fault Refusal := .next (s.call (addrWord nnn))

/-- 1NNN (R102). -/
def execJp (nnn : Addr) (s : State) : Host.Outcome State Fault Refusal := .next (s.jump (addrWord nnn))

/-- 2NNN (R103): the pushed value is the address of the following instruction. -/
def execCall (nnn : Addr) (s : State) : Host.Outcome State Fault Refusal := .next (s.call (addrWord nnn))

/-- BNNN (R104). -/
def execJpV0 (nnn : Addr) (s : State) : Host.Outcome State Fault Refusal := .next (s.jump (s.offsetTarget nnn))

end Sys2Proof.Machine
end

