-- ==== Sys2Proof/Machine/Flags.lean ====
section
/-!
DEFINITION. Machine/Flags.lean: every flag computation (spec/10_state.md R26) and the one way a flag-writing
arithmetic instruction ends (R27). A flag value is always 0 or 1.
-/

namespace Sys2Proof.Machine

/-- A flag value from a condition. -/
def flagByte (cond : Bool) : Byte := if cond then 1 else 0

/-- The carry out of `a + b` (R126). -/
def carryFlag (a b : Byte) : Byte := flagByte (decide (255 < a.toNat + b.toNat))

/-- The borrow of `a - b`: 1 when the minuend is less than the subtrahend (R127, R129). -/
def borrowFlag (a b : Byte) : Byte := flagByte (decide (a.toNat < b.toNat))

/-- Bit 0 of the shifted value before the shift (R128). -/
def shiftedOutLow (b : Byte) : Byte := flagByte (b.getLsbD 0)

/-- Bit 7 of the shifted value before the shift (R130). -/
def shiftedOutHigh (b : Byte) : Byte := flagByte (b.getLsbD 7)

/-- Write the result to `V[x]`, then the flag to `V[15]`: the flag wins when `x = 15` (R27, D13, log 19). -/
def State.setResultFlag (s : State) (x : Reg) (result flag : Byte) : State :=
  (s.setReg x result).setReg flagReg flag

end Sys2Proof.Machine
end

