-- ==== Sys2Proof/Machine/Display.lean ====
section
/-!
DEFINITION. Machine/Display.lean: 00E0 and DXYN (spec/44_display.md).
-/

namespace Sys2Proof.Machine

/-- How far a draw has come: the framebuffer, whether a cell went from 1 to 0, and the condition that stopped it, if
any (R151). -/
structure Drawing where
  fb : Frame
  hit : Bool
  abort : Option Fatal
  deriving DecidableEq, Repr

/-- One set sprite bit at a linear offset: DrawingOutOfBounds at 2048 or more, else the cell is toggled; after an abort
nothing more is drawn (R151). -/
def Drawing.plot (d : Drawing) (off : Nat) : Drawing :=
  match d.abort with
  | some _ => d
  | none =>
    if Config.fbCells ≤ off then { d with abort := some (.drawingOutOfBounds off) }
    else { d with fb := Frame.toggle d.fb off, hit := d.hit || Frame.cell d.fb off }

/-- Sprite row `r`: its byte is read when the row is reached (R63), then its bits are drawn left to right (R151). -/
def Drawing.row (s : State) (col row : Nat) (d : Drawing) (r : Nat) : Drawing :=
  match d.abort with
  | some _ => d
  | none =>
    match s.memRead (s.effAddr r) with
    | .error e => { d with abort := some e }
    | .ok b => (rowOffsets b (Config.fbCols * (row + r) + col)).foldl Drawing.plot d

/-- The rows 0 to `n - 1` of a sprite with its top left corner at column `col`, row `row` (R151). -/
def State.drawSprite (s : State) (col row n : Nat) : Drawing :=
  (List.range n).foldl (Drawing.row s col row) { fb := s.fb, hit := false, abort := none }

/-- 00E0 (R150). -/
def execCls (s : State) : Host.Outcome State Fault Refusal := .next { s with fb := Frame.clear }

/-- DXYN (R151): column `V[x]`, row `V[y]` (D14, log 20), neither reduced. The flag is written last; an abort leaves the
cells drawn so far and does not write it. -/
def execDrw (x y : Reg) (n : Nibble) (s : State) : Host.Outcome State Fault Refusal :=
  let d := s.drawSprite (s.reg x).toNat (s.reg y).toNat n.toNat
  match d.abort with
  | some e => .next ({ s with fb := d.fb }.raise e)
  | none => .next ({ s with fb := d.fb }.setReg flagReg (flagByte d.hit))

end Sys2Proof.Machine
end

