-- ==== Sys2Proof/Machine/Keys.lean ====
section
/-!
DEFINITION. Machine/Keys.lean: EX9E, EXA1, FX0A (spec/45_keys.md). Each suspends; the host completes it by an event
(Machine/Events.lean).
-/

namespace Sys2Proof.Machine

/-- EX9E (R161). -/
def execSkp (x : Reg) (s : State) : Host.Outcome State Fault Refusal := .next (s.suspend .skipIfPressed x)

/-- EXA1 (R162). -/
def execSknp (x : Reg) (s : State) : Host.Outcome State Fault Refusal := .next (s.suspend .skipIfNotPressed x)

/-- FX0A (R163). -/
def execLdVxK (x : Reg) (s : State) : Host.Outcome State Fault Refusal := .next (s.suspend .waitForKey x)

end Sys2Proof.Machine
end

