-- ==== Sys2Proof/Machine/LoadAlu.lean ====
section
/-!
DEFINITION. Machine/LoadAlu.lean: 6XNN, 7XNN, 8XY0 to 8XYE, CXNN (spec/42_load_alu.md). All arithmetic is on unsigned
bytes modulo 256 (R132). Both operands are read before anything is written (R24).
-/

namespace Sys2Proof.Machine

/-- 6XNN (R120). -/
def execLdImm (x : Reg) (nn : Byte) (s : State) : Host.Outcome State Fault Refusal := .next (s.setReg x nn)

/-- 7XNN (R121): no flag. -/
def execAddImm (x : Reg) (nn : Byte) (s : State) : Host.Outcome State Fault Refusal :=
  .next (s.setReg x (s.reg x + nn))

/-- 8XY0 (R122). -/
def execLdReg (x y : Reg) (s : State) : Host.Outcome State Fault Refusal := .next (s.setReg x (s.reg y))

/-- 8XY1 (R123): no flag (D15, log 21). -/
def execOrReg (x y : Reg) (s : State) : Host.Outcome State Fault Refusal :=
  .next (s.setReg x (s.reg x ||| s.reg y))

/-- 8XY2 (R124): no flag (D15, log 21). -/
def execAndReg (x y : Reg) (s : State) : Host.Outcome State Fault Refusal :=
  .next (s.setReg x (s.reg x &&& s.reg y))

/-- 8XY3 (R125): no flag (D15, log 21). -/
def execXorReg (x y : Reg) (s : State) : Host.Outcome State Fault Refusal :=
  .next (s.setReg x (s.reg x ^^^ s.reg y))

/-- 8XY4 (R126): the flag is the carry; no carry in. -/
def execAddReg (x y : Reg) (s : State) : Host.Outcome State Fault Refusal :=
  .next (s.setResultFlag x (s.reg x + s.reg y) (carryFlag (s.reg x) (s.reg y)))

/-- 8XY5 (R127): the flag is 1 on borrow. -/
def execSubReg (x y : Reg) (s : State) : Host.Outcome State Fault Refusal :=
  .next (s.setResultFlag x (s.reg x - s.reg y) (borrowFlag (s.reg x) (s.reg y)))

/-- 8XY6 (R128): register y is shifted, not register x. -/
def execShr (x y : Reg) (s : State) : Host.Outcome State Fault Refusal :=
  .next (s.setResultFlag x (s.reg y >>> 1) (shiftedOutLow (s.reg y)))

/-- 8XY7 (R129): the minuend is register y. -/
def execSubn (x y : Reg) (s : State) : Host.Outcome State Fault Refusal :=
  .next (s.setResultFlag x (s.reg y - s.reg x) (borrowFlag (s.reg y) (s.reg x)))

/-- 8XYE (R130): register y is shifted; bit 7 goes to the flag and not into bit 0 (D29, log 23). -/
def execShl (x y : Reg) (s : State) : Host.Outcome State Fault Refusal :=
  .next (s.setResultFlag x (s.reg y <<< 1) (shiftedOutHigh (s.reg y)))

/-- CXNN (R131): the next byte of the random source, a free value, under the mask (D19, log 7). -/
def execRnd (x : Reg) (nn : Byte) (s : State) : Host.Outcome State Fault Refusal :=
  .next { s.setReg x (Config.rnd s.draws &&& nn) with draws := s.draws + 1 }

end Sys2Proof.Machine
end

