-- ==== Sys2Proof/Machine/Events.lean ====
section
/-!
DEFINITION. Machine/Events.lean: the interface events of spec/00_scope.md R9, each with its enabling condition, and which
event comes next. An event that is not enabled has no move: the fault `notEnabled` (U8, U12, log 11).
-/

namespace Sys2Proof.Machine

/-- The state after `Reset()` on a machine with these `INIT` and `FONT` (spec/70_reset_and_hazards.md R230). -/
def State.resetWith (p : Init) : State :=
  { State.reset with v := p.v, i := p.i, dt := p.dt, st := p.st, fb := p.fb, mem := p.mem, init := p }

/-- Parameters with every byte of `FONT` and of `INIT.MEM` given (R6, R33, R34). -/
def Init.withMemory (p : Init) (font : Vector Byte 80) (rest : Vector Byte 4016) : Init :=
  { p with mem := Mem.writeBytes [] 0 (font.toList ++ rest.toList) }

/-- `Reset()` (R230), enabled in any status: the whole machine returns to the initial state that its own parameters give
(R6, log 32). The model's own fields, the host's script and the count of free values, are not the machine's and stay. -/
def resetEvent (s : State) : State := { State.resetWith s.init with script := s.script, draws := s.draws }

/-- `Load(bytes)` (R232): the first 3584 bytes go to memory from 0x200 on, the others are dropped; no further `Load` is
enabled (U12, log 10). -/
def loadEvent (bytes : List Byte) (s : State) : State :=
  { s with
    mem := Mem.writeBytes s.mem Config.loadAddr (bytes.take Config.loadCapacity), loadOpen := false }

/-- The cycle proper (spec/20_memory.md R55): fetch, advance, decode, execute. A failed fetch leaves `ip` (R53); an
illegal word is raised after the advance (R75, R203). -/
def runCycle (s : State) : Host.Outcome State Fault Refusal :=
  match s.fetch with
  | .error e => .next (s.raise e)
  | .ok w =>
    match decode w with
    | none => .next (s.advance.raise (.illegalInstruction w))
    | some instr => exec instr s.advance

/-- `ResolveKey(k)` for the register that waits (R164): `ip` is not advanced. -/
def resolveKeyEvent (k : Nibble) (x : Reg) (s : State) : State := (s.setReg x (k.setWidth 8)).resume

/-- Whether a skip outcome's condition holds for the host's answer (R165). -/
def skipHolds (kind : SuspendKind) (held : Bool) : Bool :=
  match kind with
  | .waitForKey => false
  | .skipIfPressed => held
  | .skipIfNotPressed => !held

/-- `ResolveSkip(held)` (R165). -/
def resolveSkipEvent (kind : SuspendKind) (held : Bool) (s : State) : State := (s.skipIf (skipHolds kind held)).resume

/-- A timer one lower, floored at zero (R173). -/
def timerDown (b : Byte) : Byte := if 0 < b.toNat then b - 1 else 0

/-- `Tick()` (spec/46_timers.md R173): both timers, independently; nothing else. -/
def tickEvent (s : State) : State := { s with dt := timerDown s.dt, st := timerDown s.st }

/-- One interface event (R9). `readOut` has no effect (R154). -/
def event (e : Event) (s : State) : Host.Outcome State Fault Refusal :=
  match e with
  | .reset => .next (resetEvent s)
  | .load bytes =>
    if s.status = .running ∧ s.loadOpen = true then .next (loadEvent bytes s) else .fault (.notEnabled e)
  | .cycle => if s.status = .running then runCycle { s with loadOpen := false } else .fault (.notEnabled e)
  | .resolveKey k =>
    match s.status with
    | .pending .waitForKey x => .next (resolveKeyEvent k x s)
    | _ => .fault (.notEnabled e)
  | .resolveSkip held =>
    match s.status with
    | .pending .skipIfPressed _ => .next (resolveSkipEvent .skipIfPressed held s)
    | .pending .skipIfNotPressed _ => .next (resolveSkipEvent .skipIfNotPressed held s)
    | _ => .fault (.notEnabled e)
  | .tick => .next (tickEvent s)
  | .readOut => .next s

/-- The core waits on: the host issues nothing, and one more free value is used up (R166, log 8). -/
def waitOn (s : State) : State := { s with draws := s.draws + 1 }

/-- What happens when the script names no event. A running core is issued a cycle. A waiting core is answered or waits on,
for ever if the host never answers (R166); a skip outcome is answered without waiting. Whether and what the host answers
are free values (D20, log 8). A halted core has no such event (R208). -/
def unscriptedEvent (s : State) : Host.Outcome State Fault Refusal :=
  match s.status with
  | .running => event .cycle s
  | .pending .waitForKey _ =>
    if Config.answered s.draws then event (.resolveKey (Config.key s.draws)) (waitOn s) else .next (waitOn s)
  | .pending _ _ => event (.resolveSkip (Config.held s.draws)) (waitOn s)
  | .halted err => .fault (.halted err)

/-- The next event: the script's first, if there is one (log 9). -/
def nextEvent (s : State) : Host.Outcome State Fault Refusal :=
  match s.script with
  | e :: rest => event e { s with script := rest }
  | [] => unscriptedEvent s

/-- Where the next fetch can read a whole word: `ip`, or the load address when `ip` lies too high for any fetch
(log 13). -/
def fetchPlace (s : State) : Word := if s.ip.toNat + 1 < Config.memSize then s.ip else BitVec.ofNat 16 Config.loadAddr

/-- `s` made ready to fetch a given word next: the core runs, no scripted event stands before the cycle, and the word's
bytes lie at `ip` (log 13). -/
def placeWord (s : State) (w : Word) : State :=
  { s with
    mem := Mem.writeWord s.mem (fetchPlace s).toNat w, ip := fetchPlace s, status := .running, script := [] }

end Sys2Proof.Machine
end

