-- ==== Sys2Proof/Machine/Step.lean ====
section
/-!
DEFINITION. Machine/Step.lean: one step of the machine is one interface event (spec/00_scope.md R9), or one more
moment of a wait (spec/45_keys.md R166).
-/

namespace Sys2Proof.Machine

/-- One step: the next event of the host's script, or what an empty script leaves to the host: a `Cycle` while
the core runs, an answer or a longer wait while an outcome is pending. -/
def step (s : State) : Host.Outcome State Fault Refusal := nextEvent s

/-- `s` with a table row's instruction stored where the next step fetches it (log 12, log 13). -/
def State.withFetchWord (s : State) (nbits w : Nat) : State := placeWord s (tableWord nbits w)

end Sys2Proof.Machine
end

