-- ==== Sys2Proof/Safety.lean ====
section
/-!
DEFINITION. Safety.lean: the terms claims are stated in: what a safe state and an ended run are, the invariant of the
machine, and what it means that an instruction leaves a part of the state alone.
-/

namespace Sys2Proof.Machine

/-- No fatal condition has been raised (spec/60_exceptions.md R208: a halted state is never a successful end). -/
def State.Safe (s : State) : Prop := ∀ err, s.status ≠ .halted err

/-- The run has ended normally (spec/70_reset_and_hazards.md R245, the spec's own convention, D24, log 29): the word at `ip` is a
jump to `ip`. -/
def State.Ended (s : State) : Prop :=
  s.status = .running ∧ s.ip.toNat ≤ 0x0FFE ∧ s.fetch = .ok (0x1000#16 + s.ip)

/-- The invariant every step keeps: memory is canonical, now and after a reset; `ip` is a value it can hold (spec/10_state.md R30), not above 4096
while an outcome is pending; every stacked address is one that followed a fetch (R36). -/
def State.Inv (s : State) : Prop :=
  Mem.wf s.mem ∧ Mem.wf s.init.mem ∧ s.ip.toNat ≤ 4350 ∧ (∀ k x, s.status = .pending k x → s.ip.toNat ≤ 4096) ∧
    ∀ a ∈ s.stack, 2 ≤ a.toNat ∧ a.toNat ≤ 4096

/-- `ip` as it is inside an instruction: it followed a fetch (R29, R30). -/
def State.Fetched (s : State) : Prop := 2 ≤ s.ip.toNat ∧ s.ip.toNat ≤ 4096

/-- Every byte of memory reads as before. -/
def KeepsMemory (s t : State) : Prop := ∀ a, Mem.read t.mem a = Mem.read s.mem a

/-- Every framebuffer cell is as before. -/
def KeepsScreen (s t : State) : Prop := ∀ off, t.cell off = s.cell off

/-- Every general register is as before. -/
def KeepsRegs (s t : State) : Prop := ∀ r, t.reg r = s.reg r

/-- Both timers are as before. -/
def KeepsTimers (s t : State) : Prop := t.dt = s.dt ∧ t.st = s.st

/-- What belongs to the host is as before: the load window, the parameters, the script, the count of free values. -/
def KeepsHost (s t : State) : Prop :=
  t.loadOpen = s.loadOpen ∧ t.init = s.init ∧ t.script = s.script ∧ t.draws = s.draws

/-- Only general registers may differ. -/
def OnlyRegs (s t : State) : Prop :=
  t.i = s.i ∧ t.ip = s.ip ∧ t.stack = s.stack ∧ t.status = s.status ∧
    KeepsTimers s t ∧ KeepsMemory s t ∧ KeepsScreen s t ∧ KeepsHost s t

/-- Only the instruction pointer and the stack may differ. -/
def OnlyControl (s t : State) : Prop :=
  t.i = s.i ∧ t.status = s.status ∧
    KeepsRegs s t ∧ KeepsTimers s t ∧ KeepsMemory s t ∧ KeepsScreen s t ∧ KeepsHost s t

/-- Only the address register may differ. -/
def OnlyAddress (s t : State) : Prop :=
  t.ip = s.ip ∧ t.stack = s.stack ∧ t.status = s.status ∧
    KeepsRegs s t ∧ KeepsTimers s t ∧ KeepsMemory s t ∧ KeepsScreen s t ∧ KeepsHost s t

/-- Only the timers may differ. -/
def OnlyTimers (s t : State) : Prop :=
  t.i = s.i ∧ t.ip = s.ip ∧ t.stack = s.stack ∧ t.status = s.status ∧
    KeepsRegs s t ∧ KeepsMemory s t ∧ KeepsScreen s t ∧ KeepsHost s t

/-- Only the status latch may differ. -/
def OnlyStatus (s t : State) : Prop :=
  t.i = s.i ∧ t.ip = s.ip ∧ t.stack = s.stack ∧
    KeepsRegs s t ∧ KeepsTimers s t ∧ KeepsMemory s t ∧ KeepsScreen s t ∧ KeepsHost s t

/-- Only memory may differ. -/
def OnlyMemory (s t : State) : Prop :=
  t.i = s.i ∧ t.ip = s.ip ∧ t.stack = s.stack ∧ t.status = s.status ∧
    KeepsRegs s t ∧ KeepsTimers s t ∧ KeepsScreen s t ∧ KeepsHost s t

/-- Only the framebuffer may differ. -/
def OnlyScreen (s t : State) : Prop :=
  t.i = s.i ∧ t.ip = s.ip ∧ t.stack = s.stack ∧ t.status = s.status ∧
    KeepsRegs s t ∧ KeepsTimers s t ∧ KeepsMemory s t ∧ KeepsHost s t

/-- Only registers, the framebuffer and the status latch may differ. -/
def OnlyDraw (s t : State) : Prop :=
  t.i = s.i ∧ t.ip = s.ip ∧ t.stack = s.stack ∧ KeepsTimers s t ∧ KeepsMemory s t ∧ KeepsHost s t

/-- Bit `7 - c` of sprite row `r`, the pixel in column `c` of the sprite (spec/44_display.md R151). -/
def State.spriteBit (s : State) (r c : Nat) : Bool := (Mem.read s.mem (s.effAddr r)).getLsbD (7 - c)

/-- The linear offset of the sprite's pixel `(r, c)` when `V[x]` is the start column and `V[y]` the start row (R151). -/
def State.spriteOffset (s : State) (x y : Reg) (r c : Nat) : Nat :=
  64 * ((s.reg y).toNat + r) + ((s.reg x).toNat + c)

/-- Pixel `(r', c')` comes before pixel `(r, c)`: rows first, then left to right (R151, R209). -/
def PixelBefore (r' c' r c : Nat) : Prop := r' < r ∨ r' = r ∧ c' < c

/-- A set bit of the sprite that comes before pixel `(r, c)` has offset `k`. -/
def State.CoveredBefore (s : State) (x y : Reg) (r c k : Nat) : Prop :=
  ∃ r' c', PixelBefore r' c' r c ∧ c' < 8 ∧ s.spriteBit r' c' = true ∧ s.spriteOffset x y r' c' = k

/-- Every pixel before `(r, c)` can be drawn: its byte lies in memory and, if its bit is set, its offset in the
framebuffer. -/
def State.DrawableBefore (s : State) (x y : Reg) (r c : Nat) : Prop :=
  ∀ r' c', PixelBefore r' c' r c → c' < 8 →
    s.effAddr r' < 4096 ∧ (s.spriteBit r' c' = true → s.spriteOffset x y r' c' < 2048)

end Sys2Proof.Machine
end

