-- ==== Sys2Proof/Certificates/Slice0/Obligations.lean ====
section
/-!
DEFINITION. Certificates/Slice0/Obligations.lean: the statements for the provers. Each formalises rules of spec/; its
docstring names them, and where a clause rests on a choice of the spec or of the model it names the decision (D<n> of
spec/92_eei_decisions.md) and the assumption log's entry. On entry to an instruction `s.ip` is the instruction's address
plus 2 (spec/10_state.md R29).
-/

open Sys2Proof Sys2Proof.Machine

/-! ### Encoding -/

/-- spec/30_encoding.md sections 1 to 3: the encoder and the decoder agree on every well-formed instruction, with every
operand at every value. -/
def Obligations.DecodeOfEncode : Prop :=
  ∀ i : Instr, i.wellFormed = true → decode (encode i) = some i

/-- spec/30_encoding.md sections 1 to 3: a word has at most one meaning, and no bit of it is dropped. -/
def Obligations.EncodeOfDecode : Prop :=
  ∀ (w : Word) (i : Instr), decode w = some i → encode i = w ∧ i.wellFormed = true

/-- spec/30_encoding.md section 4: the illegal words are exactly those of its table (an inference of the spec from its
opcode map). `w / 4096` is nibble `a`, `w % 16` nibble `d`, `w % 256` the low byte. -/
def Obligations.IllegalWordsExactly : Prop :=
  ∀ w : Word, decode w = none ↔
    (w.toNat / 4096 = 5 ∧ w.toNat % 16 ≠ 0) ∨
    (w.toNat / 4096 = 8 ∧ 8 ≤ w.toNat % 16 ∧ w.toNat % 16 ≠ 14) ∨
    (w.toNat / 4096 = 9 ∧ w.toNat % 16 ≠ 0) ∨
    (w.toNat / 4096 = 14 ∧ w.toNat % 256 ≠ 0x9E ∧ w.toNat % 256 ≠ 0xA1) ∨
    (w.toNat / 4096 = 15 ∧
      w.toNat % 256 ∉ [0x07, 0x0A, 0x15, 0x18, 0x1E, 0x29, 0x33, 0x55, 0x65])

/-- spec/30_encoding.md sections 2 and 3: one word of each family, written out from the opcode map, decodes to the instruction
it stands for. The order of the nibbles in an immediate or an address is decision D30 (log 23). -/
def Obligations.WordsOfTheOpcodeMap : Prop :=
  decode 0x00E0#16 = some .cls ∧ decode 0x00EE#16 = some .ret ∧ decode 0x00E1#16 = some (.sys 0x0E1#12) ∧
  decode 0x1ABC#16 = some (.jp 0xABC#12) ∧ decode 0x4A42#16 = some (.sneImm 10 0x42#8) ∧
  decode 0x8F17#16 = some (.subn 15 1) ∧ decode 0xD015#16 = some (.drw 0 1 5#4) ∧
  decode 0xE39E#16 = some (.skp 3) ∧ decode 0xF265#16 = some (.loadRegs 2) ∧ decode 0xF118#16 = some (.ldStVx 1)

/-! ### The cycle -/

/-- R51: the fetch is big-endian; the byte at the lower address is the high byte of the word. -/
def Obligations.FetchIsBigEndian : Prop :=
  ∀ s : State, s.ip.toNat + 1 < 4096 →
    ∃ w : Word, s.fetch = .ok w ∧
      w.toNat = 256 * (Mem.read s.mem s.ip.toNat).toNat + (Mem.read s.mem (s.ip.toNat + 1)).toNat

/-- spec/20_memory.md section 4: a step of a running core whose next event is a cycle (its script is empty or says so) runs
the instruction whose word stands at `ip`, in the state with `ip` advanced by 2, with that event taken off the script, and
with `Load` no longer enabled (the script and the load window are the model's, log 9, log 10). -/
def Obligations.StepRunsDecodedInstruction : Prop :=
  ∀ (s : State) (i : Instr) (rest : List Event), s.script = [] ∧ rest = [] ∨ s.script = .cycle :: rest →
    s.status = .running → s.ip.toNat + 1 < 4096 →
    decode (Mem.read s.mem s.ip.toNat ++ Mem.read s.mem (s.ip.toNat + 1)) = some i →
    step s = exec i { s with ip := s.ip + 2, loadOpen := false, script := rest }

/-- spec/20_memory.md sections 3 and 4, decisions D3, D5, D6 and D9 (log 6, log 25, log 14, log 22): a fetch with a byte
outside memory halts the core with the lowest such address, `ip` is not advanced, and no instruction runs; `Load` is no
longer enabled (log 10). -/
def Obligations.FetchOutsideMemoryHalts : Prop :=
  ∀ s : State, s.status = .running → 4095 ≤ s.ip.toNat →
    ∃ t, event .cycle s = .next t ∧ t.status = .halted (.memoryOutOfBounds (max s.ip.toNat 4096)) ∧
      OnlyStatus { s with loadOpen := false } t

/-- spec/30_encoding.md section 4 and spec/60_exceptions.md section 1: an illegal word halts the core after `ip` has been
advanced (the latch is decision D3, log 6; that the payload is the word, D5, log 25; that `ip` stays advanced, D9, log 22);
nothing else changes, but that `Load` is no longer enabled (log 10). -/
def Obligations.IllegalWordHalts : Prop :=
  ∀ (s : State) (w : Word), s.status = .running → s.fetch = .ok w → decode w = none →
    ∃ t, event .cycle s = .next t ∧ t.status = .halted (.illegalInstruction w) ∧
      OnlyStatus { s with ip := s.ip + 2, loadOpen := false } t

/-- spec/60_exceptions.md section 2 and spec/20_memory.md section 4: every instruction completes in every state: it answers
a next state, whose status may be a suspension or a halt (log 6). -/
def Obligations.EveryInstructionAnswersNext : Prop :=
  ∀ (i : Instr) (s : State), ∃ t, exec i s = .next t

/-- spec/20_memory.md section 5 (an inference of the spec): a store to the next instruction is seen by the next fetch; a
block store at `ip` of two registers or more makes `V[0]`, `V[1]` the next word. That a store below 0x200 is performed is
decision D12 (log 17). -/
def Obligations.StoreThenFetchSeesIt : Prop :=
  ∀ (s : State) (x : Reg), 1 ≤ x.val → s.i = s.ip → s.i.toNat + x.val < 4096 →
    ∃ t, exec (.storeRegs x) s = .next t ∧ t.fetch = .ok (s.reg 0 ++ s.reg 1)

/-- spec/70_reset_and_hazards.md section 5, decision D24 (the spec's convention, log 29): in an ended run a further cycle leaves the
whole state unchanged (but for the model's note that `Load` is no longer enabled, log 10). -/
def Obligations.EndedRunIsFixed : Prop :=
  ∀ s : State, s.Ended → s.script = [] → step s = .next { s with loadOpen := false }

/-! ### Control transfer -/

/-- R102: 1NNN sets `ip` to `nnn`, zero-extended; nothing else changes. -/
def Obligations.JumpSetsPointer : Prop :=
  ∀ (nnn : Addr) (s : State), ∃ t, exec (.jp nnn) s = .next t ∧ t.ip.toNat = nnn.toNat ∧
    t.stack = s.stack ∧ OnlyControl s t

/-- R104: BNNN sets `ip` to `V[0] + nnn`, which no register width wraps; nothing else changes. -/
def Obligations.OffsetJumpDoesNotWrap : Prop :=
  ∀ (nnn : Addr) (s : State), ∃ t, exec (.jpV0 nnn) s = .next t ∧
    t.ip.toNat = (s.reg 0).toNat + nnn.toNat ∧ t.stack = s.stack ∧ OnlyControl s t

/-- spec/40_control_flow.md 2NNN and 0NNN: both push the advanced `ip` and jump to `nnn`; that the push always succeeds is
decision D18 (unbounded stack, log 15). -/
def Obligations.CallAndSysPushAndJump : Prop :=
  ∀ (nnn : Addr) (s : State), ∀ i ∈ [Instr.call nnn, Instr.sys nnn],
    ∃ t, exec i s = .next t ∧ t.ip.toNat = nnn.toNat ∧ t.stack = s.ip :: s.stack ∧ OnlyControl s t

/-- spec/40_control_flow.md 00EE and spec/60_exceptions.md section 1: with a value on the stack the return pops the most
recent one into `ip`; with an empty stack it halts the core (the latch is decision D3, log 6) and changes nothing else. -/
def Obligations.ReturnPopsPointerOrHalts : Prop :=
  ∀ s : State,
    (∀ (a : Word) (rest : List Word), s.stack = a :: rest →
      ∃ t, exec .ret s = .next t ∧ t.ip = a ∧ t.stack = rest ∧ OnlyControl s t) ∧
    (s.stack = [] →
      ∃ t, exec .ret s = .next t ∧ t.status = .halted .returnOutsideSubroutine ∧ OnlyStatus s t)

/-- spec/40_control_flow.md, properties of the family (an inference of the spec): a return at the depth a call left undoes
the call on `ip` and the stack, whatever happened in between. -/
def Obligations.ReturnUndoesCall : Prop :=
  ∀ (nnn : Addr) (s t u : State), exec (.call nnn) s = .next t → u.stack = t.stack →
    ∃ r, exec .ret u = .next r ∧ r.ip = s.ip ∧ r.stack = s.stack

/-! ### Skips -/

/-- spec/41_skip.md, the four shapes: each skip adds 2 to the advanced `ip` exactly under its condition, and changes nothing
else; the wrap at 65536, which no run reaches, is decision D10 (log 24). -/
def Obligations.SkipsAddTwoUnderCondition : Prop :=
  ∀ (x y : Reg) (nn : Byte) (s : State),
    (∃ t, exec (.seImm x nn) s = .next t ∧
      t.ip.toNat = (if s.reg x = nn then (s.ip.toNat + 2) % 65536 else s.ip.toNat) ∧
      t.stack = s.stack ∧ OnlyControl s t) ∧
    (∃ t, exec (.sneImm x nn) s = .next t ∧
      t.ip.toNat = (if s.reg x ≠ nn then (s.ip.toNat + 2) % 65536 else s.ip.toNat) ∧
      t.stack = s.stack ∧ OnlyControl s t) ∧
    (∃ t, exec (.seReg x y) s = .next t ∧
      t.ip.toNat = (if s.reg x = s.reg y then (s.ip.toNat + 2) % 65536 else s.ip.toNat) ∧
      t.stack = s.stack ∧ OnlyControl s t) ∧
    (∃ t, exec (.sneReg x y) s = .next t ∧
      t.ip.toNat = (if s.reg x ≠ s.reg y then (s.ip.toNat + 2) % 65536 else s.ip.toNat) ∧
      t.stack = s.stack ∧ OnlyControl s t)

/-! ### Loads, arithmetic, logic, shifts, random -/

/-- R120: 6XNN writes the immediate to `V[x]`; nothing else changes. -/
def Obligations.LoadImmediateWritesRegister : Prop :=
  ∀ (x : Reg) (nn : Byte) (s : State), ∃ t, exec (.ldImm x nn) s = .next t ∧ t.reg x = nn ∧
    (∀ r, r ≠ x → t.reg r = s.reg r) ∧ OnlyRegs s t

/-- R121: 7XNN adds the immediate modulo 256 and writes no flag; nothing else changes. -/
def Obligations.AddImmediateWrapsWithoutFlag : Prop :=
  ∀ (x : Reg) (nn : Byte) (s : State), ∃ t, exec (.addImm x nn) s = .next t ∧
    (t.reg x).toNat = ((s.reg x).toNat + nn.toNat) % 256 ∧
    (∀ r, r ≠ x → t.reg r = s.reg r) ∧ OnlyRegs s t

/-- R122: 8XY0 copies `V[y]` to `V[x]`; nothing else changes. -/
def Obligations.MoveCopiesRegister : Prop :=
  ∀ (x y : Reg) (s : State), ∃ t, exec (.ldReg x y) s = .next t ∧ t.reg x = s.reg y ∧
    (∀ r, r ≠ x → t.reg r = s.reg r) ∧ OnlyRegs s t

/-- spec/42_load_alu.md 8XY1, 8XY2, 8XY3: the logic shapes act bit by bit; that they leave the flag register alone (unless it
is the destination) is decision D15 (log 21). -/
def Obligations.LogicIsBitwiseWithoutFlag : Prop :=
  ∀ (x y : Reg) (s : State),
    (∃ t, exec (.orReg x y) s = .next t ∧
      (∀ k, (t.reg x).getLsbD k = ((s.reg x).getLsbD k || (s.reg y).getLsbD k)) ∧
      (∀ r, r ≠ x → t.reg r = s.reg r) ∧ OnlyRegs s t) ∧
    (∃ t, exec (.andReg x y) s = .next t ∧
      (∀ k, (t.reg x).getLsbD k = ((s.reg x).getLsbD k && (s.reg y).getLsbD k)) ∧
      (∀ r, r ≠ x → t.reg r = s.reg r) ∧ OnlyRegs s t) ∧
    (∃ t, exec (.xorReg x y) s = .next t ∧
      (∀ k, (t.reg x).getLsbD k = ((s.reg x).getLsbD k ^^ (s.reg y).getLsbD k)) ∧
      (∀ r, r ≠ x → t.reg r = s.reg r) ∧ OnlyRegs s t)

/-- spec/42_load_alu.md 8XY4: the sum modulo 256 and the carry; that the flag wins when `x = 15` is decision D13 (log 19). -/
def Obligations.AddSetsCarry : Prop :=
  ∀ (x y : Reg) (s : State), ∃ t, exec (.addReg x y) s = .next t ∧
    (x ≠ 15 → (t.reg x).toNat = ((s.reg x).toNat + (s.reg y).toNat) % 256) ∧
    (t.reg 15).toNat = (if (s.reg x).toNat + (s.reg y).toNat > 255 then 1 else 0) ∧
    (∀ r, r ≠ x → r ≠ 15 → t.reg r = s.reg r) ∧ OnlyRegs s t

/-- spec/42_load_alu.md 8XY5 and 8XY7: the difference modulo 256 and the borrow as 1; that the flag wins when `x = 15` is
decision D13 (log 19). -/
def Obligations.SubtractionsSetBorrow : Prop :=
  ∀ (x y : Reg) (s : State),
    (∃ t, exec (.subReg x y) s = .next t ∧
      (x ≠ 15 → (t.reg x).toNat = ((s.reg x).toNat + 256 - (s.reg y).toNat) % 256) ∧
      (t.reg 15).toNat = (if (s.reg x).toNat < (s.reg y).toNat then 1 else 0) ∧
      (∀ r, r ≠ x → r ≠ 15 → t.reg r = s.reg r) ∧ OnlyRegs s t) ∧
    (∃ t, exec (.subn x y) s = .next t ∧
      (x ≠ 15 → (t.reg x).toNat = ((s.reg y).toNat + 256 - (s.reg x).toNat) % 256) ∧
      (t.reg 15).toNat = (if (s.reg y).toNat < (s.reg x).toNat then 1 else 0) ∧
      (∀ r, r ≠ x → r ≠ 15 → t.reg r = s.reg r) ∧ OnlyRegs s t)

/-- spec/42_load_alu.md 8XY6 and 8XYE: `V[y]` shifted by one into `V[x]`, the lost bit to the flag; truncation is decision D29
(log 23), that the flag wins when `x = 15` is decision D13 (log 19). -/
def Obligations.ShiftsReadRegisterY : Prop :=
  ∀ (x y : Reg) (s : State),
    (∃ t, exec (.shr x y) s = .next t ∧
      (x ≠ 15 → (t.reg x).toNat = (s.reg y).toNat / 2) ∧
      (t.reg 15).toNat = (s.reg y).toNat % 2 ∧
      (∀ r, r ≠ x → r ≠ 15 → t.reg r = s.reg r) ∧ OnlyRegs s t) ∧
    (∃ t, exec (.shl x y) s = .next t ∧
      (x ≠ 15 → (t.reg x).toNat = (s.reg y).toNat * 2 % 256) ∧
      (t.reg 15).toNat = (s.reg y).toNat / 128 ∧
      (∀ r, r ≠ x → r ≠ 15 → t.reg r = s.reg r) ∧ OnlyRegs s t)

/-- spec/42_load_alu.md CXNN: `V[x]` becomes the drawn byte under the mask; the byte is the free value `Config.rnd` (decision
D19, log 7), so nothing is said of it but that no bit outside the mask is set; one draw is used up. -/
def Obligations.RandomByteUnderMask : Prop :=
  ∀ (x : Reg) (nn : Byte) (s : State), ∃ t, exec (.rnd x nn) s = .next t ∧
    t.reg x = Config.rnd s.draws &&& nn ∧
    (∀ k, nn.getLsbD k = false → (t.reg x).getLsbD k = false) ∧
    (∀ r, r ≠ x → t.reg r = s.reg r) ∧ OnlyRegs { s with draws := s.draws + 1 } t

/-! ### Address register and memory -/

/-- R140: ANNN writes `nnn`, zero-extended, to `I`; nothing else changes. -/
def Obligations.LoadAddressRegister : Prop :=
  ∀ (nnn : Addr) (s : State), ∃ t, exec (.ldI nnn) s = .next t ∧ t.i.toNat = nnn.toNat ∧ OnlyAddress s t

/-- spec/43_address_memory.md FX1E: `I` grows by `V[x]` modulo 65536, not masked; that no flag is written is decision D15
(log 21). -/
def Obligations.AddToAddressRegisterWraps : Prop :=
  ∀ (x : Reg) (s : State), ∃ t, exec (.addI x) s = .next t ∧
    t.i.toNat = (s.i.toNat + (s.reg x).toNat) % 65536 ∧ OnlyAddress s t

/-- spec/43_address_memory.md FX29 and spec/60_exceptions.md section 1: for a value of at most 15, `I` becomes five times
`V[x]`; a value above 15 halts the core (the latch is decision D3, log 6, the payload decision D5, log 25) and changes
nothing else. -/
def Obligations.GlyphAddressIsFiveTimesDigitOrHalts : Prop :=
  ∀ (x : Reg) (s : State),
    ((s.reg x).toNat ≤ 15 →
      ∃ t, exec (.ldF x) s = .next t ∧ t.i.toNat = 5 * (s.reg x).toNat ∧ OnlyAddress s t) ∧
    (15 < (s.reg x).toNat →
      ∃ t, exec (.ldF x) s = .next t ∧ t.status = .halted (.invalidFontCodePoint (s.reg x)) ∧ OnlyStatus s t)

/-- spec/43_address_memory.md FX33: the three decimal digits go to `I`, `I + 1`, `I + 2`; no other byte changes (stores below
0x200 are performed by decision D12, log 17). -/
def Obligations.DecimalDigitsAreStored : Prop :=
  ∀ (x : Reg) (s : State), s.effAddr 2 < 4096 →
    ∃ t, exec (.ldB x) s = .next t ∧
      (Mem.read t.mem (s.effAddr 0)).toNat = (s.reg x).toNat / 100 ∧
      (Mem.read t.mem (s.effAddr 1)).toNat = (s.reg x).toNat / 10 % 10 ∧
      (Mem.read t.mem (s.effAddr 2)).toNat = (s.reg x).toNat % 10 ∧
      (∀ a, a < s.effAddr 0 ∨ s.effAddr 2 < a → Mem.read t.mem a = Mem.read s.mem a) ∧ OnlyMemory s t

/-- spec/43_address_memory.md FX55: `V[0]` to `V[x]` go to `I` and on; no other byte changes. That stores below 0x200 are
performed is decision D12 (log 17), that `I` does not change is decision D15 (log 21). -/
def Obligations.RegistersAreStored : Prop :=
  ∀ (x : Reg) (s : State), s.effAddr x.val < 4096 →
    ∃ t, exec (.storeRegs x) s = .next t ∧
      (∀ r : Reg, r ≤ x → Mem.read t.mem (s.effAddr r.val) = s.reg r) ∧
      (∀ a, a < s.effAddr 0 ∨ s.effAddr x.val < a → Mem.read t.mem a = Mem.read s.mem a) ∧ OnlyMemory s t

/-- spec/43_address_memory.md FX65: `V[0]` to `V[x]` come from `I` and on; the registers above stay, and that `I` does not
change is decision D15 (log 21). -/
def Obligations.RegistersAreLoaded : Prop :=
  ∀ (x : Reg) (s : State), s.effAddr x.val < 4096 →
    ∃ t, exec (.loadRegs x) s = .next t ∧
      (∀ r : Reg, r ≤ x → t.reg r = Mem.read s.mem (s.effAddr r.val)) ∧
      (∀ r : Reg, x < r → t.reg r = s.reg r) ∧ OnlyRegs s t

/-- spec/20_memory.md section 3, decisions D3, D5, D6, D7 and D8 (log 6, log 25, log 14, log 24, log 22): a block access whose
last address lies outside memory halts the core, with the lowest such address, and changes nothing else. -/
def Obligations.BlockAccessOutsideMemoryHalts : Prop :=
  ∀ (x : Reg) (s : State),
    (4096 ≤ s.effAddr 2 → ∃ t, exec (.ldB x) s = .next t ∧
      t.status = .halted (.memoryOutOfBounds (max s.i.toNat 4096)) ∧ OnlyStatus s t) ∧
    (4096 ≤ s.effAddr x.val → ∀ i ∈ [Instr.storeRegs x, Instr.loadRegs x], ∃ t, exec i s = .next t ∧
      t.status = .halted (.memoryOutOfBounds (max s.i.toNat 4096)) ∧ OnlyStatus s t)

/-- spec/43_address_memory.md, properties of the family (an inference of the spec): FX55, then any change of the registers
alone, then FX65 with the same `x` restores `V[0]` to `V[x]`. That stores below 0x200 are performed is decision D12 (log 17),
that neither instruction changes `I` is decision D15 (log 21). -/
def Obligations.LoadUndoesStore : Prop :=
  ∀ (x : Reg) (s t u : State), s.effAddr x.val < 4096 → exec (.storeRegs x) s = .next t → OnlyRegs t u →
    ∃ r, exec (.loadRegs x) u = .next r ∧ ∀ k : Reg, k ≤ x → r.reg k = s.reg k

/-! ### Framebuffer -/

/-- R150: 00E0 turns every cell off; nothing else changes. -/
def Obligations.ClearTurnsEveryCellOff : Prop :=
  ∀ s : State, ∃ t, exec .cls s = .next t ∧ (∀ off, t.cell off = false) ∧ OnlyScreen s t

/-- spec/44_display.md DXYN, decision D14 (log 20): a sprite all of whose rows lie in memory and all of whose set bits lie in
the framebuffer toggles exactly the cells under its set bits, and the flag is 1 exactly when one of them was on. -/
def Obligations.DrawTogglesCoveredCells : Prop :=
  ∀ (x y : Reg) (n : Nibble) (s : State), s.DrawableBefore x y n.toNat 0 →
    ∃ t, exec (.drw x y n) s = .next t ∧
      (∀ k, t.cell k ≠ s.cell k ↔ s.CoveredBefore x y n.toNat 0 k) ∧
      ((∃ k, s.cell k = true ∧ s.CoveredBefore x y n.toNat 0 k) → t.reg 15 = 1) ∧
      ((¬ ∃ k, s.cell k = true ∧ s.CoveredBefore x y n.toNat 0 k) → t.reg 15 = 0) ∧
      (∀ r, r ≠ 15 → t.reg r = s.reg r) ∧ t.status = s.status ∧ OnlyDraw s t

/-- spec/44_display.md DXYN, decision D14 (log 20): the first set bit at offset 2048 or more, in row then column order, halts
the core (the latch is decision D3, log 6); the cells toggled before it stay toggled, and the flag is not written. -/
def Obligations.DrawOutsideScreenHalts : Prop :=
  ∀ (x y : Reg) (n : Nibble) (s : State) (r c : Nat), r < n.toNat → c < 8 → s.effAddr r < 4096 →
    s.DrawableBefore x y r c → s.spriteBit r c = true → 2048 ≤ s.spriteOffset x y r c →
    ∃ t, exec (.drw x y n) s = .next t ∧
      t.status = .halted (.drawingOutOfBounds (s.spriteOffset x y r c)) ∧
      (∀ k, t.cell k ≠ s.cell k ↔ s.CoveredBefore x y r c k) ∧ KeepsRegs s t ∧ OnlyDraw s t

/-- spec/44_display.md DXYN and spec/20_memory.md section 3: the first row whose byte lies outside memory halts the core with
its address; the rows before it stay drawn, and the flag is not written. The condition, its payload, the natural-number
address and the latch are decisions D6, D5, D7 and D3 (log 14, log 25, log 24, log 6), the rows kept and the geometry D8 and
D14 (log 22, log 20). -/
def Obligations.DrawOutsideMemoryHalts : Prop :=
  ∀ (x y : Reg) (n : Nibble) (s : State) (r : Nat), r < n.toNat → 4096 ≤ s.effAddr r →
    s.DrawableBefore x y r 0 →
    ∃ t, exec (.drw x y n) s = .next t ∧ t.status = .halted (.memoryOutOfBounds (s.effAddr r)) ∧
      (∀ k, t.cell k ≠ s.cell k ↔ s.CoveredBefore x y r 0 k) ∧ KeepsRegs s t ∧ OnlyDraw s t

/-- spec/44_display.md DXYN, the source's property S4 (read with decision D14, log 20): drawing the same sprite twice at the same place
restores every cell; on a screen that was clear the second draw's flag is 1 exactly when the sprite has a set bit. The
coordinates are not in the flag register, which the first draw overwrites. -/
def Obligations.DrawTwiceRestoresScreen : Prop :=
  ∀ (x y : Reg) (n : Nibble) (s t : State), x ≠ 15 → y ≠ 15 → s.Safe → exec (.drw x y n) s = .next t → t.Safe →
    ∃ u, exec (.drw x y n) t = .next u ∧ u.Safe ∧ KeepsScreen s u ∧
      ((∀ off, s.cell off = false) →
        (u.reg 15 = 1 ↔ ∃ r c, r < n.toNat ∧ c < 8 ∧ s.spriteBit r c = true))

/-! ### Keys and timers -/

/-- spec/45_keys.md, the suspend primitive and the three shapes; the latch is decision D2 (log 5): each records its outcome
and its register and changes nothing else. -/
def Obligations.KeyInstructionsSuspend : Prop :=
  ∀ (x : Reg) (s : State),
    (∃ t, exec (.skp x) s = .next t ∧ t.status = .pending .skipIfPressed x ∧ OnlyStatus s t) ∧
    (∃ t, exec (.sknp x) s = .next t ∧ t.status = .pending .skipIfNotPressed x ∧ OnlyStatus s t) ∧
    (∃ t, exec (.ldVxK x) s = .next t ∧ t.status = .pending .waitForKey x ∧ OnlyStatus s t)

/-- spec/45_keys.md, the resolution events, with the latch of decision D2 and the model's fault for an event that is not
enabled (log 11): `ResolveKey(k)` writes the key code to the waiting register and does not advance `ip`. -/
def Obligations.ResolveKeyStoresCode : Prop :=
  ∀ (k : Nibble) (s : State),
    (∀ x, s.status = .pending .waitForKey x →
      ∃ t, event (.resolveKey k) s = .next t ∧ t.status = .running ∧ (t.reg x).toNat = k.toNat ∧
        (∀ r, r ≠ x → t.reg r = s.reg r) ∧ OnlyRegs { s with status := .running } t) ∧
    ((∀ x, s.status ≠ .pending .waitForKey x) →
      event (.resolveKey k) s = .fault (.notEnabled (.resolveKey k)))

/-- spec/45_keys.md, waiting and hanging (the latch is decision D2, log 5): while a key is awaited, no event but an answer or
a reset ends the wait, and nothing but the timers changes; with an empty script a step is either one more moment of the wait,
which only counts a free value, or an answer. Which of the two is the free value `Config.answered` (log 8), so no statement
can promise that the wait ends. -/
def Obligations.WaitEndsOnlyByAnswerOrReset : Prop :=
  ∀ (s : State) (x : Reg), s.status = .pending .waitForKey x →
    (∀ e t, event e s = .next t → (∀ k, e ≠ .resolveKey k) → e ≠ .reset →
      t.status = .pending .waitForKey x ∧ OnlyTimers s t) ∧
    (s.script = [] →
      step s = .next { s with draws := s.draws + 1 } ∨
      ∃ k, step s = event (.resolveKey k) { s with draws := s.draws + 1 })

/-- spec/45_keys.md, the resolution events, with the latch of decision D2 and the model's fault for an event that is not
enabled (log 11): `ResolveSkip(held)` adds 2 to `ip` exactly when the outcome's condition holds; the wrap at 65536, which no
run reaches, is decision D10 (log 24). -/
def Obligations.ResolveSkipAddsTwoUnderCondition : Prop :=
  ∀ (held : Bool) (s : State),
    (∀ x, s.status = .pending .skipIfPressed x →
      ∃ t, event (.resolveSkip held) s = .next t ∧ t.status = .running ∧
        t.ip.toNat = (if held = true then (s.ip.toNat + 2) % 65536 else s.ip.toNat) ∧
        t.stack = s.stack ∧ OnlyControl { s with status := .running } t) ∧
    (∀ x, s.status = .pending .skipIfNotPressed x →
      ∃ t, event (.resolveSkip held) s = .next t ∧ t.status = .running ∧
        t.ip.toNat = (if held = false then (s.ip.toNat + 2) % 65536 else s.ip.toNat) ∧
        t.stack = s.stack ∧ OnlyControl { s with status := .running } t) ∧
    ((∀ x, s.status ≠ .pending .skipIfPressed x ∧ s.status ≠ .pending .skipIfNotPressed x) →
      event (.resolveSkip held) s = .fault (.notEnabled (.resolveSkip held)))

/-- spec/45_keys.md, equivalence with a one-step reading (an inference of the spec): a `Tick` commutes with the resolution of
a suspending instruction. -/
def Obligations.TickCommutesWithResolution : Prop :=
  ∀ (s t : State) (e : Event), (∃ k, e = .resolveKey k) ∨ (∃ held, e = .resolveSkip held) → event e s = .next t →
    ∃ u, event .tick s = .next u ∧ event e u = event .tick t

/-- R170: FX07 copies the delay timer to `V[x]`; nothing else changes. -/
def Obligations.DelayTimerIsRead : Prop :=
  ∀ (x : Reg) (s : State), ∃ t, exec (.ldVxDt x) s = .next t ∧ t.reg x = s.dt ∧
    (∀ r, r ≠ x → t.reg r = s.reg r) ∧ OnlyRegs s t

/-- R171: FX15 copies `V[x]` to the delay timer; nothing else changes. -/
def Obligations.DelayTimerIsSet : Prop :=
  ∀ (x : Reg) (s : State), ∃ t, exec (.ldDtVx x) s = .next t ∧ t.dt = s.reg x ∧ t.st = s.st ∧ OnlyTimers s t

/-- spec/46_timers.md FX18: `V[x]` goes to the sound timer; that nothing else follows from it is decision D25 (log 28). -/
def Obligations.SoundTimerIsSet : Prop :=
  ∀ (x : Reg) (s : State), ∃ t, exec (.ldStVx x) s = .next t ∧ t.st = s.reg x ∧ t.dt = s.dt ∧ OnlyTimers s t

/-- spec/46_timers.md, the timer decrement: `Tick()` lowers each timer by one, floored at zero, and changes nothing else; that
it is an event of the core enabled in any status is decisions D28 and D21 (log 9). -/
def Obligations.TickLowersBothTimers : Prop :=
  ∀ s : State, ∃ t, event .tick s = .next t ∧
    t.dt.toNat = (if 0 < s.dt.toNat then s.dt.toNat - 1 else 0) ∧
    t.st.toNat = (if 0 < s.st.toNat then s.st.toNat - 1 else 0) ∧ OnlyTimers s t

/-- spec/46_timers.md, properties of the family: no instruction reads the sound timer. Changing it changes nothing an
instruction does, but for the timer itself where the instruction does not set it. -/
def Obligations.SoundTimerIsNeverRead : Prop :=
  ∀ (i : Instr) (s t : State) (b : Byte), exec i s = .next t →
    exec i { s with st := b } = .next (match i with | .ldStVx _ => t | _ => { t with st := b })

/-! ### Which instructions change what -/

/-- spec/10_state.md section 3 (the completeness of the list is decision D15, log 21): `V[15]` changes only by a flag writer,
or where a field names it as the destination (`x = 15`, FX65 with `x = 15` among them). -/
def Obligations.FlagChangesOnlyByListedInstructions : Prop :=
  ∀ (i : Instr) (s t : State), exec i s = .next t → t.reg 15 ≠ s.reg 15 →
    (∃ x y, i ∈ [Instr.addReg x y, .subReg x y, .shr x y, .subn x y, .shl x y]) ∨
    (∃ x y n, i = .drw x y n) ∨
    (∃ nn y, i ∈ [Instr.ldImm 15 nn, .addImm 15 nn, .rnd 15 nn, .ldReg 15 y, .orReg 15 y, .andReg 15 y, .xorReg 15 y,
      .ldVxDt 15, .loadRegs 15])

/-- spec/20_memory.md section 1 and spec/43_address_memory.md (the completeness of the table is decision D15, log 21): memory
changes only by FX33 and FX55. -/
def Obligations.MemoryChangesOnlyByStores : Prop :=
  ∀ (i : Instr) (s t : State) (a : Nat), exec i s = .next t → Mem.read t.mem a ≠ Mem.read s.mem a →
    ∃ x, i = .ldB x ∨ i = .storeRegs x

/-- spec/44_display.md, properties of the family (the completeness of the table is decision D15, log 21): the framebuffer
changes only by 00E0 and DXYN. -/
def Obligations.ScreenChangesOnlyByClearAndDraw : Prop :=
  ∀ (i : Instr) (s t : State) (off : Nat), exec i s = .next t → t.cell off ≠ s.cell off →
    i = .cls ∨ ∃ x y n, i = .drw x y n

/-- spec/10_state.md sections 5, 6 and 9 (the completeness of the table is decision D15, log 21): the stack changes only by
00EE, 0NNN and 2NNN, `I` only by ANNN, FX1E and FX29, `DT` only by FX15 and `ST` only by FX18. -/
def Obligations.SpecialRegistersChangeOnlyByTheirInstructions : Prop :=
  ∀ (i : Instr) (s t : State), exec i s = .next t →
    (t.stack ≠ s.stack → i = .ret ∨ ∃ nnn, i = .sys nnn ∨ i = .call nnn) ∧
    (t.i ≠ s.i → (∃ nnn, i = .ldI nnn) ∨ ∃ x, i = .addI x ∨ i = .ldF x) ∧
    (t.dt ≠ s.dt → ∃ x, i = .ldDtVx x) ∧ (t.st ≠ s.st → ∃ x, i = .ldStVx x)

/-- spec/45_keys.md, counting (the latch is decision D2): no instruction but EX9E, EXA1 and FX0A suspends, and the outcome
carries the instruction's own register. -/
def Obligations.OnlyKeyInstructionsSuspend : Prop :=
  ∀ (i : Instr) (s t : State) (k : SuspendKind) (x : Reg), s.status = .running → exec i s = .next t →
    t.status = .pending k x →
    (i = .skp x ∧ k = .skipIfPressed) ∨ (i = .sknp x ∧ k = .skipIfNotPressed) ∨ (i = .ldVxK x ∧ k = .waitForKey)

/-- spec/10_state.md section 2 and spec/60_exceptions.md section 1 (an inference of the spec, decision D27, log 25): no step
raises InvalidRegister. -/
def Obligations.InvalidRegisterIsNeverRaised : Prop :=
  ∀ (s t : State) (n : Nat), step s = .next t → t.status = .halted (.invalidRegister n) →
    s.status = .halted (.invalidRegister n)

/-! ### Reset, load, halt -/

/-- spec/70_reset_and_hazards.md section 1 and spec/00_scope.md section 3, for every `INIT` and `FONT`: what `Reset()` leaves,
in any status, on a machine with these parameters; the machine keeps them over every step, so every reset of a run gives the
same. The empty stack and the running status are decisions D16 and D2 (log 5); that the script, the count of free values and
the parameters are kept, and that memory is in its canonical form, is the model's (log 9, log 7, log 32, log 27). The state
the model starts from is the reset for the spec's default parameters (log 1 to log 4). -/
def Obligations.ResetLeavesInitialState : Prop :=
  (∀ (s : State) (p : Init) (font : Vector Byte 80) (rest : Vector Byte 4016), s.init = p.withMemory font rest →
    ∃ t, event .reset s = .next t ∧ t.ip = 0x0200 ∧
      (∀ a : Fin 80, Mem.read t.mem a.val = font[a]) ∧
      (∀ a : Fin 4016, Mem.read t.mem (80 + a.val) = rest[a]) ∧
      (∀ r, t.reg r = p.v[r]) ∧ t.i = p.i ∧ t.dt = p.dt ∧ t.st = p.st ∧ (∀ off, t.cell off = Frame.cell p.fb off) ∧
      t.stack = [] ∧ t.status = .running ∧ t.loadOpen = true ∧ Mem.wf t.mem ∧
      t.init = s.init ∧ t.script = s.script ∧ t.draws = s.draws) ∧
  (∀ s t : State, step s = .next t → t.init = s.init) ∧
  State.reset = State.resetWith Init.default

/-- R231: the entry point is the constant 0x0200: the first fetch after `Reset`, and after `Reset` and `Load`, reads the
bytes at 0x200 and 0x201. -/
def Obligations.FirstFetchIsAtLoadAddress : Prop :=
  ∀ (s : State) (bytes : List Byte), ∃ t u, event .reset s = .next t ∧ event (.load bytes) t = .next u ∧
    (t.ip.toNat = 0x200 ∧ t.fetch = .ok (Mem.read t.mem 0x200 ++ Mem.read t.mem 0x201)) ∧
    u.ip.toNat = 0x200 ∧ u.fetch = .ok (Mem.read u.mem 0x200 ++ Mem.read u.mem 0x201)

/-- spec/70_reset_and_hazards.md section 2: `Load` writes the first 3584 bytes from 0x200 on, drops the others, and changes
nothing else. When it is enabled is decision D22 and its ruling U12 (log 10): while the core runs, once, before the first
cycle; otherwise it is the model's fault for an event that is not enabled (log 11). -/
def Obligations.LoadWritesTruncatedImage : Prop :=
  ∀ (s : State) (bytes : List Byte),
    (s.status = .running → s.loadOpen = true →
      ∃ t, event (.load bytes) s = .next t ∧
        (∀ k (h : k < bytes.length), k < 3584 → Mem.read t.mem (0x200 + k) = bytes[k]) ∧
        (∀ a, a < 0x200 ∨ 0x200 + min bytes.length 3584 ≤ a → Mem.read t.mem a = Mem.read s.mem a) ∧
        OnlyMemory { s with loadOpen := false } t ∧
        ∀ again, event (.load again) t = .fault (.notEnabled (.load again))) ∧
    (s.status ≠ .running ∨ s.loadOpen = false → event (.load bytes) s = .fault (.notEnabled (.load bytes)))

/-- spec/60_exceptions.md section 2, decision D3 (log 6, log 11): from a halted core no event but `Reset` leads out: the others
are not enabled or change only the timers, and a step whose script is empty has no move. -/
def Obligations.HaltIsFinal : Prop :=
  ∀ (s : State) (err : Fatal), s.status = .halted err →
    (∀ e t, event e s = .next t → e ≠ .reset → t.status = .halted err ∧ OnlyTimers s t) ∧
    (s.script = [] → step s = .fault (.halted err))

/-- The model's invariant (spec/10_state.md sections 4 and 9: the values `ip` and the stack can hold, inferences of the spec;
the canonical form of memory, now and after a reset, is the model's, log 27): every step keeps it, whatever the script. -/
def Obligations.StepKeepsInvariant : Prop :=
  ∀ s t : State, s.Inv → step s = .next t → t.Inv

/-- The invariant holds at reset (the reset values are of log 1 to log 5). -/
def Obligations.ResetMeetsInvariant : Prop := State.reset.Inv
end

