-- ==== Sys2Proof/Laws/Decode.lean ====
section
/-!
SUPPORT. Laws/Decode.lean: an encoded word as a number, form by form (spec/30_encoding.md R71), the fields of a word as
numbers (R72), hence the fields of an encoded word; and the bytes of a word (spec/20_memory.md R51).
-/

namespace Sys2Proof

@[simp] theorem regOfNibble_nibbleOfReg (x : Reg) : regOfNibble (nibbleOfReg x) = x := rfl

@[simp] theorem nibbleOfReg_regOfNibble (b : Nibble) : nibbleOfReg (regOfNibble b) = b := rfl

@[simp] theorem nibbleOfReg_toNat (x : Reg) : (nibbleOfReg x).toNat = x.val := rfl

/-- An appended bit vector as a number. -/
theorem toNat_append_eq {m n : Nat} (a : BitVec m) (b : BitVec n) : (a ++ b).toNat = a.toNat * 2 ^ n + b.toNat := by
  rw [BitVec.toNat_append, Nat.shiftLeft_eq, Nat.mul_comm, ← Nat.two_pow_add_eq_or_of_lt b.isLt]

theorem toNat_encodeA (op : Nibble) (nnn : Addr) : (encodeA op nnn).toNat = op.toNat * 4096 + nnn.toNat :=
  toNat_append_eq op nnn

theorem toNat_encodeXI (op : Nibble) (x : Reg) (nn : Byte) :
    (encodeXI op x nn).toNat = op.toNat * 4096 + x.val * 256 + nn.toNat := by
  rw [encodeXI, toNat_append_eq, toNat_append_eq, nibbleOfReg_toNat]
  generalize op.toNat = a
  omega

theorem toNat_encodeXY (op : Nibble) (x y : Reg) (d : Nibble) :
    (encodeXY op x y d).toNat = op.toNat * 4096 + x.val * 256 + y.val * 16 + d.toNat := by
  rw [encodeXY, toNat_append_eq, toNat_append_eq, toNat_append_eq, nibbleOfReg_toNat, nibbleOfReg_toNat]
  generalize op.toNat = a
  omega

theorem toNat_opNibble (w : Word) : (opNibble w).toNat = w.toNat / 4096 := by
  have := w.isLt
  simp only [opNibble, BitVec.extractLsb'_toNat, Nat.shiftRight_eq_div_pow]; omega

theorem val_fieldX (w : Word) : (fieldX w).val = w.toNat / 256 % 16 := by
  simp only [fieldX, regOfNibble, BitVec.extractLsb'_toNat, Nat.shiftRight_eq_div_pow]

theorem val_fieldY (w : Word) : (fieldY w).val = w.toNat / 16 % 16 := by
  simp only [fieldY, regOfNibble, BitVec.extractLsb'_toNat, Nat.shiftRight_eq_div_pow]

theorem toNat_fieldN (w : Word) : (fieldN w).toNat = w.toNat % 16 := by
  simp only [fieldN, BitVec.extractLsb'_toNat, Nat.shiftRight_eq_div_pow]; omega

theorem toNat_fieldNN (w : Word) : (fieldNN w).toNat = w.toNat % 256 := by
  simp only [fieldNN, BitVec.extractLsb'_toNat, Nat.shiftRight_eq_div_pow]; omega

theorem toNat_fieldNNN (w : Word) : (fieldNNN w).toNat = w.toNat % 4096 := by
  simp only [fieldNNN, BitVec.extractLsb'_toNat, Nat.shiftRight_eq_div_pow]; omega

section Fields
variable (op d : Nibble) (x y : Reg) (nn : Byte) (nnn : Addr)

@[simp] theorem opNibble_encodeA : opNibble (encodeA op nnn) = op := by
  apply BitVec.eq_of_toNat_eq
  have := nnn.isLt
  rw [toNat_opNibble, toNat_encodeA]; omega

@[simp] theorem fieldNNN_encodeA : fieldNNN (encodeA op nnn) = nnn := by
  apply BitVec.eq_of_toNat_eq
  have := nnn.isLt
  rw [toNat_fieldNNN, toNat_encodeA]; omega

@[simp] theorem opNibble_encodeXI : opNibble (encodeXI op x nn) = op := by
  apply BitVec.eq_of_toNat_eq
  have := nn.isLt
  rw [toNat_opNibble, toNat_encodeXI]; omega

@[simp] theorem fieldX_encodeXI : fieldX (encodeXI op x nn) = x := by
  apply Fin.ext
  have := nn.isLt
  rw [val_fieldX, toNat_encodeXI]; omega

@[simp] theorem fieldNN_encodeXI : fieldNN (encodeXI op x nn) = nn := by
  apply BitVec.eq_of_toNat_eq
  have := nn.isLt
  rw [toNat_fieldNN, toNat_encodeXI]; omega

@[simp] theorem opNibble_encodeXY : opNibble (encodeXY op x y d) = op := by
  apply BitVec.eq_of_toNat_eq
  have := d.isLt
  rw [toNat_opNibble, toNat_encodeXY]; omega

@[simp] theorem fieldX_encodeXY : fieldX (encodeXY op x y d) = x := by
  apply Fin.ext
  have := d.isLt
  rw [val_fieldX, toNat_encodeXY]; omega

@[simp] theorem fieldY_encodeXY : fieldY (encodeXY op x y d) = y := by
  apply Fin.ext
  have := d.isLt
  rw [val_fieldY, toNat_encodeXY]; omega

@[simp] theorem fieldN_encodeXY : fieldN (encodeXY op x y d) = d := by
  apply BitVec.eq_of_toNat_eq
  have := d.isLt
  rw [toNat_fieldN, toNat_encodeXY]; omega

end Fields

/-- A word is put together again from its two bytes. -/
@[simp] theorem wordOfBytes_highByte_lowByte (w : Word) : wordOfBytes (highByte w) (lowByte w) = w := by
  apply BitVec.eq_of_toNat_eq
  have := w.isLt
  rw [wordOfBytes, toNat_append_eq]
  simp only [highByte, lowByte, BitVec.extractLsb'_toNat, Nat.shiftRight_eq_div_pow]; omega

theorem toNat_wordOfBytes (hi lo : Byte) : (wordOfBytes hi lo).toNat = 256 * hi.toNat + lo.toNat := by
  rw [wordOfBytes, toNat_append_eq]; omega

/-- The decoder reads a table row's bits as one word. -/
theorem decodeTableWord_eq (nbits w : Nat) : decodeTableWord nbits w = decode (tableWord nbits w) := by
  simp [decodeTableWord, decodeBytes, Option.map_map, Function.comp_def]

end Sys2Proof
end

