-- ==== Sys2Proof/Laws/Memory.lean ====
section
/-!
SUPPORT. Laws/Memory.lean: what reading and writing memory do, that every memory operation keeps the canonical form, and
that two canonical memories that read alike are the same data. Reading laws hold of any list, canonical or not.
-/

namespace Sys2Proof.Machine

theorem Mem.read_erase (m : Mem) (a a' : Nat) :
    Mem.read (Mem.erase m a) a' = if a' = a then Mem.initial a else Mem.read m a' := by
  induction m with
  | nil => simp only [Mem.erase, List.filter_nil, Mem.read]; split <;> simp_all
  | cons c m ih =>
    simp only [Mem.erase, List.filter_cons] at ih ⊢
    by_cases hc : c.1 = a
    · simp only [hc, bne_self_eq_false, Bool.false_eq_true, if_false, ih, Mem.read]
      grind
    · simp only [bne_iff_ne, ne_eq, hc, not_false_eq_true, if_true, Mem.read, ih]
      grind

theorem Mem.read_insert (m : Mem) (a a' : Nat) (b : Byte) (h : ∀ c ∈ m, c.1 ≠ a) :
    Mem.read (Mem.insert m a b) a' = if a' = a then b else Mem.read m a' := by
  induction m with
  | nil => simp only [Mem.insert, Mem.read]; grind
  | cons c m ih =>
    have hc := h c (by simp)
    have hm : ∀ d ∈ m, d.1 ≠ a := fun d hd => h d (by simp [hd])
    simp only [Mem.insert]
    split
    · simp only [Mem.read]; grind
    · simp only [Mem.read, ih hm]; grind

theorem Mem.ne_of_mem_erase (m : Mem) (a : Nat) : ∀ c ∈ Mem.erase m a, c.1 ≠ a := by
  intro c hc
  simpa using (List.mem_filter.1 hc).2

/-- A read after a write gives the value written, at that address and no other. -/
theorem Mem.read_write (m : Mem) (a a' : Nat) (b : Byte) :
    Mem.read (Mem.write m a b) a' = if a' = a then b else Mem.read m a' := by
  unfold Mem.write
  split
  · rename_i hb; rw [Mem.read_erase]; grind
  · rw [Mem.read_insert _ _ _ _ (Mem.ne_of_mem_erase m a), Mem.read_erase]; grind

/-- What memory reads as after consecutive bytes were stored. -/
theorem Mem.read_writeBytes (m : Mem) (a a' : Nat) (bs : List Byte) :
    Mem.read (Mem.writeBytes m a bs) a' =
      if a ≤ a' ∧ a' < a + bs.length then bs.getD (a' - a) 0 else Mem.read m a' := by
  induction bs generalizing m a with
  | nil => simp [Mem.writeBytes]
  | cons b bs ih =>
    rw [Mem.writeBytes, ih, Mem.read_write]
    by_cases h0 : a' = a
    · subst h0; simp
    · by_cases h1 : a + 1 ≤ a' ∧ a' < a + 1 + bs.length
      · have h2 : a ≤ a' ∧ a' < a + (b :: bs).length := by simp only [List.length_cons]; omega
        rw [if_pos h1, if_pos h2]
        obtain ⟨k, hk⟩ : ∃ k, a' - a = k + 1 := ⟨a' - a - 1, by omega⟩
        rw [show a' - (a + 1) = k by omega, hk, List.getD_cons_succ]
      · have h2 : ¬ (a ≤ a' ∧ a' < a + (b :: bs).length) := by simp only [List.length_cons]; omega
        rw [if_neg h1, if_neg h2, if_neg h0]

theorem Mem.wf_erase {m : Mem} (h : Mem.wf m) (a : Nat) : Mem.wf (Mem.erase m a) :=
  ⟨h.1.filter _, fun c hc => h.2 c (List.mem_filter.1 hc).1⟩

theorem Mem.mem_insert {m : Mem} {a : Nat} {b : Byte} {c : Host.Cell} :
    c ∈ Mem.insert m a b ↔ c = (a, b) ∨ c ∈ m := by
  induction m with
  | nil => simp [Mem.insert]
  | cons d m ih =>
    simp only [Mem.insert]
    split
    · simp
    · simp only [List.mem_cons, ih]; tauto

theorem Mem.wf_insert {m : Mem} (h : Mem.wf m) {a : Nat} {b : Byte} (ha : a < Config.memSize)
    (hb : b ≠ Mem.initial a) (hm : ∀ c ∈ m, c.1 ≠ a) : Mem.wf (Mem.insert m a b) := by
  refine ⟨?_, fun c hc => ?_⟩
  · obtain ⟨hp, -⟩ := h
    induction m with
    | nil => simp [Mem.insert]
    | cons d m ih =>
      obtain ⟨hd, hp⟩ := List.pairwise_cons.1 hp
      have hda : d.1 ≠ a := hm d (by simp)
      simp only [Mem.insert]
      split
      · rename_i hlt
        refine List.pairwise_cons.2 ⟨fun e he => ?_, List.pairwise_cons.2 ⟨hd, hp⟩⟩
        rcases List.mem_cons.1 he with rfl | he
        · exact hlt
        · exact Nat.lt_trans hlt (hd e he)
      · rename_i hlt
        refine List.pairwise_cons.2 ⟨fun e he => ?_, ih (fun c hc => hm c (by simp [hc])) hp⟩
        rcases Mem.mem_insert.1 he with rfl | he
        · simp only; omega
        · exact hd e he
  · rcases Mem.mem_insert.1 hc with rfl | hc
    · exact ⟨ha, hb⟩
    · exact h.2 c hc

/-- A store inside memory keeps the canonical form. -/
theorem Mem.wf_write {m : Mem} (h : Mem.wf m) {a : Nat} (b : Byte) (ha : a < Config.memSize) :
    Mem.wf (Mem.write m a b) := by
  unfold Mem.write
  split
  · exact Mem.wf_erase h a
  · exact Mem.wf_insert (Mem.wf_erase h a) ha ‹_› (Mem.ne_of_mem_erase m a)

/-- Consecutive stores inside memory keep the canonical form. -/
theorem Mem.wf_writeBytes {m : Mem} (h : Mem.wf m) {a : Nat} (bs : List Byte) (ha : a + bs.length ≤ Config.memSize) :
    Mem.wf (Mem.writeBytes m a bs) := by
  induction bs generalizing m a with
  | nil => exact h
  | cons b bs ih =>
    simp only [List.length_cons] at ha
    exact ih (Mem.wf_write h b (by omega)) (by omega)

/-- A canonical memory with nothing but higher addresses reads as unlisted below. -/
theorem Mem.read_of_lt {m : Mem} {a : Nat} (h : ∀ c ∈ m, a < c.1) : Mem.read m a = Mem.initial a := by
  induction m with
  | nil => rfl
  | cons c m ih =>
    have := h c (by simp)
    rw [Mem.read, if_neg (by omega), ih (fun d hd => h d (by simp [hd]))]

/-- Two canonical memories that read alike at every address are equal data. -/
theorem Mem.ext_of_read {m m' : Mem} (h : Mem.wf m) (h' : Mem.wf m')
    (hr : ∀ a, Mem.read m a = Mem.read m' a) : m = m' := by
  induction m generalizing m' with
  | nil =>
    cases m' with
    | nil => rfl
    | cons c m' => exact absurd (by simpa [Mem.read] using (hr c.1).symm) (h'.2 c (by simp)).2
  | cons c m ih =>
    obtain ⟨hc, hp⟩ := List.pairwise_cons.1 h.1
    have hcne := (h.2 c (by simp)).2
    cases m' with
    | nil => exact absurd (by simpa [Mem.read] using hr c.1) hcne
    | cons d m' =>
      obtain ⟨hd, hp'⟩ := List.pairwise_cons.1 h'.1
      have hdne := (h'.2 d (by simp)).2
      have hkey : c.1 = d.1 := by
        rcases Nat.lt_trichotomy c.1 d.1 with hlt | heq | hgt
        · refine absurd ?_ hcne
          have h1 := hr c.1
          rwa [Mem.read, if_pos rfl, Mem.read_of_lt] at h1
          intro e he
          rcases List.mem_cons.1 he with rfl | he
          · exact hlt
          · exact Nat.lt_trans hlt (hd e he)
        · exact heq
        · refine absurd ?_ hdne
          have h1 := (hr d.1).symm
          rwa [Mem.read, if_pos rfl, Mem.read_of_lt] at h1
          intro e he
          rcases List.mem_cons.1 he with rfl | he
          · exact hgt
          · exact Nat.lt_trans hgt (hc e he)
      have hval : c.2 = d.2 := by simpa [Mem.read, hkey] using hr c.1
      have hcd : c = d := Prod.ext hkey hval
      subst hcd
      refine congrArg _ (ih ⟨hp, fun e he => h.2 e (by simp [he])⟩ ⟨hp', fun e he => h'.2 e (by simp [he])⟩ fun a => ?_)
      by_cases ha : c.1 = a
      · subst ha; rw [Mem.read_of_lt hc, Mem.read_of_lt hd]
      · simpa [Mem.read, ha] using hr a

/-- What a read of one byte answers. -/
theorem State.memRead_of_lt {s : State} {a : Nat} (h : a < Config.memSize) : s.memRead a = .ok (Mem.read s.mem a) :=
  if_neg (Nat.not_le.2 h)

theorem State.memRead_of_le {s : State} {a : Nat} (h : Config.memSize ≤ a) :
    s.memRead a = .error (.memoryOutOfBounds a) :=
  if_pos h

/-- The fetch of a word inside memory, and the only other thing it can answer. -/
theorem State.fetch_of_lt {s : State} (h : s.ip.toNat + 1 < Config.memSize) :
    s.fetch = .ok (wordOfBytes (Mem.read s.mem s.ip.toNat) (Mem.read s.mem (s.ip.toNat + 1))) := by
  rw [State.fetch, State.memRead_of_lt (by omega), State.memRead_of_lt h]

theorem State.fetch_of_le {s : State} (h : Config.memSize ≤ s.ip.toNat + 1) :
    s.fetch = .error (.memoryOutOfBounds (max s.ip.toNat Config.memSize)) := by
  by_cases h' : Config.memSize ≤ s.ip.toNat
  · rw [State.fetch, State.memRead_of_le h', State.memRead_of_le (a := s.ip.toNat + 1) (by omega),
      Nat.max_eq_left h']
  · rw [State.fetch, State.memRead_of_lt (by omega), State.memRead_of_le h]
    simp only [Except.error.injEq, Fatal.memoryOutOfBounds.injEq]
    omega

/-- A range check passes, or names the lowest address outside memory. -/
theorem State.blockFault_eq_none {s : State} {k : Nat} : s.blockFault k = none ↔ s.effAddr k < Config.memSize := by
  unfold State.blockFault; split <;> simp_all

theorem State.blockFault_eq_some {s : State} {k : Nat} {e : Fatal} :
    s.blockFault k = some e ↔
      Config.memSize ≤ s.effAddr k ∧ e = .memoryOutOfBounds (max s.i.toNat Config.memSize) := by
  unfold State.blockFault; split <;> simp_all [eq_comm]

end Sys2Proof.Machine
end

