-- ==== Sys2Proof/Laws/Display.lean ====
section
/-!
SUPPORT. Laws/Display.lean: what toggling a cell, plotting a list of offsets and drawing a sprite do
(spec/44_display.md R151).
-/

namespace Sys2Proof.Machine

/-- An offset past the framebuffer names no cell. -/
theorem Frame.cell_of_le (fb : Frame) {k : Nat} (h : Config.fbCells ≤ k) : Frame.cell fb k = false := by
  have : 32 ≤ k / 64 := by simp only [Config.fbCells] at h; omega
  simp [Frame.cell, Config.fbCols, Vector.getElem?_eq_none this]

@[simp] theorem Frame.cell_clear (k : Nat) : Frame.cell Frame.clear k = false := by
  by_cases h : k / 64 < 32
  · simp [Frame.cell, Frame.clear, Config.fbCols, h]
  · exact Frame.cell_of_le _ (by simp only [Config.fbCells]; omega)

/-- Toggling changes one cell and no other. -/
theorem Frame.cell_toggle (fb : Frame) {o : Nat} (k : Nat) (h : o < Config.fbCells) :
    Frame.cell (Frame.toggle fb o) k = (Frame.cell fb k ^^ decide (k = o)) := by
  simp only [Config.fbCells] at h
  have ho : o / 64 < 32 := by omega
  have hm : o % 64 < 64 := Nat.mod_lt _ (by omega)
  by_cases hk : k / 64 < 32
  · have hkm : k % 64 < 64 := Nat.mod_lt _ (by omega)
    by_cases hq : o / 64 = k / 64
    · have : decide (k = o) = decide (o % 64 = k % 64) := decide_eq_decide.2 (by omega)
      simp [Frame.cell, Frame.toggle, Config.fbCols, hq, hk, BitVec.getLsbD_twoPow, this, hm]
    · have : k ≠ o := by rintro rfl; exact hq rfl
      simp [Frame.cell, Frame.toggle, Config.fbCols, hq, this]
  · have : k ≠ o := by rintro rfl; exact hk ho
    rw [Frame.cell_of_le _ (by simp only [Config.fbCells]; omega),
      Frame.cell_of_le _ (by simp only [Config.fbCells]; omega)]
    simp [this]

/-- After an abort nothing more is plotted. -/
theorem Drawing.foldl_plot_of_abort {d : Drawing} {e : Fatal} (h : d.abort = some e) (offs : List Nat) :
    offs.foldl Drawing.plot d = d := by
  induction offs with
  | nil => rfl
  | cons o offs ih => rw [List.foldl_cons, show d.plot o = d by simp [Drawing.plot, h], ih]

/-- Plotting distinct offsets inside the framebuffer toggles exactly those cells and notes whether one was on. -/
theorem Drawing.foldl_plot (d : Drawing) (h : d.abort = none) (offs : List Nat) (hn : offs.Nodup)
    (hb : ∀ o ∈ offs, o < Config.fbCells) :
    (offs.foldl Drawing.plot d).abort = none ∧
      (∀ k, Frame.cell (offs.foldl Drawing.plot d).fb k = (Frame.cell d.fb k ^^ decide (k ∈ offs))) ∧
      (offs.foldl Drawing.plot d).hit = (d.hit || offs.any (Frame.cell d.fb)) := by
  induction offs generalizing d with
  | nil => simp [h]
  | cons o offs ih =>
    have ho : o < Config.fbCells := hb o (by simp)
    obtain ⟨hno, hn⟩ := List.nodup_cons.1 hn
    have hp : d.plot o = { d with fb := Frame.toggle d.fb o, hit := d.hit || Frame.cell d.fb o } := by
      simp [Drawing.plot, h, Nat.not_le.2 ho]
    obtain ⟨h1, h2, h3⟩ := ih (d.plot o) (by rw [hp]; exact h) hn (fun a ha => hb a (by simp [ha]))
    rw [List.foldl_cons]
    refine ⟨h1, fun k => ?_, ?_⟩
    · rw [h2 k, hp]
      simp only [Frame.cell_toggle _ _ ho, List.mem_cons]
      by_cases hk : k = o
      · subst hk; simp [hno]
      · simp [hk]
    · rw [h3, hp]
      have : offs.any (Frame.cell (Frame.toggle d.fb o)) = offs.any (Frame.cell d.fb) := by
        rw [Bool.eq_iff_iff, List.any_eq_true, List.any_eq_true]
        refine exists_congr fun a => and_congr_right fun ha => ?_
        have : a ≠ o := by rintro rfl; exact hno ha
        simp [Frame.cell_toggle _ _ ho, this]
      simp [this, Bool.or_assoc]

/-- An offset past the framebuffer stops the draw; what was plotted before it stays. -/
theorem Drawing.plot_of_le {d : Drawing} (h : d.abort = none) {o : Nat} (ho : Config.fbCells ≤ o) :
    d.plot o = { d with abort := some (.drawingOutOfBounds o) } := by
  simp only [Drawing.plot, h, if_pos ho]

/-- The offsets of one sprite row: its set bits, column by column. -/
theorem mem_rowOffsets {b : Byte} {start k : Nat} :
    k ∈ rowOffsets b start ↔ ∃ c, c < 8 ∧ b.getLsbD (7 - c) = true ∧ start + c = k := by
  simp [rowOffsets, and_assoc]

theorem nodup_rowOffsets (b : Byte) (start : Nat) : (rowOffsets b start).Nodup :=
  (List.nodup_range.filter _).map (fun _ _ h => Nat.add_left_cancel h)

theorem Drawing.row_of_abort {d : Drawing} {e : Fatal} (h : d.abort = some e) (s : State) (col row r : Nat) :
    Drawing.row s col row d r = d := by
  simp [Drawing.row, h]

theorem Drawing.foldl_row_of_abort {d : Drawing} {e : Fatal} (h : d.abort = some e) (s : State) (col row : Nat)
    (rs : List Nat) : rs.foldl (Drawing.row s col row) d = d := by
  induction rs with
  | nil => rfl
  | cons r rs ih => rw [List.foldl_cons, Drawing.row_of_abort h, ih]

/-- A row whose byte lies in memory plots its offsets. -/
theorem Drawing.row_of_lt {s : State} {r : Nat} (h : s.effAddr r < Config.memSize) (col row : Nat) (d : Drawing) :
    Drawing.row s col row d r =
      (rowOffsets (Mem.read s.mem (s.effAddr r)) (64 * (row + r) + col)).foldl Drawing.plot d := by
  cases ha : d.abort with
  | some e => rw [Drawing.row_of_abort ha, Drawing.foldl_plot_of_abort ha]
  | none => simp only [Drawing.row, ha, State.memRead_of_lt h]

/-- A row whose byte lies outside memory stops the draw. -/
theorem Drawing.row_of_le {s : State} {r : Nat} (h : Config.memSize ≤ s.effAddr r) (col row : Nat) {d : Drawing}
    (ha : d.abort = none) :
    Drawing.row s col row d r = { d with abort := some (.memoryOutOfBounds (s.effAddr r)) } := by
  simp only [Drawing.row, ha, State.memRead_of_le h]

/-- The offsets of the set bits of the rows 0 to `n - 1` of a sprite, in drawing order. -/
def State.spriteOffsets (s : State) (col row n : Nat) : List Nat :=
  (List.range n).flatMap (fun r => rowOffsets (Mem.read s.mem (s.effAddr r)) (64 * (row + r) + col))

theorem State.mem_spriteOffsets {s : State} {col row n k : Nat} :
    k ∈ s.spriteOffsets col row n ↔
      ∃ r c, r < n ∧ c < 8 ∧ (Mem.read s.mem (s.effAddr r)).getLsbD (7 - c) = true ∧ 64 * (row + r) + col + c = k := by
  simp only [State.spriteOffsets, List.mem_flatMap, List.mem_range, mem_rowOffsets]
  exact ⟨fun ⟨r, hr, c, hc⟩ => ⟨r, c, hr, hc⟩, fun ⟨r, c, hr, hc⟩ => ⟨r, hr, c, hc⟩⟩

/-- No two pixels of one sprite share a cell. -/
theorem State.nodup_spriteOffsets (s : State) (col row n : Nat) : (s.spriteOffsets col row n).Nodup := by
  refine List.nodup_flatMap.2 ⟨fun r _ => nodup_rowOffsets _ _, ?_⟩
  refine List.Nodup.pairwise_of_forall_ne List.nodup_range fun r _ r' _ hr k hk hk' => ?_
  obtain ⟨c, hc, -, rfl⟩ := mem_rowOffsets.1 hk
  obtain ⟨c', hc', -, h⟩ := mem_rowOffsets.1 hk'
  omega

/-- Drawing rows that lie in memory plots the sprite's offsets. -/
theorem State.drawSprite_eq (s : State) (col row n : Nat) (h : ∀ r, r < n → s.effAddr r < Config.memSize) :
    s.drawSprite col row n =
      (s.spriteOffsets col row n).foldl Drawing.plot { fb := s.fb, hit := false, abort := none } := by
  rw [State.spriteOffsets, List.foldl_flatMap, State.drawSprite]
  refine List.foldl_ext _ _ _ fun d r hr => ?_
  exact Drawing.row_of_lt (h r (List.mem_range.1 hr)) col row d

/-- A draw is the draw of its first `r` rows, then row `r`, then the others. -/
theorem State.drawSprite_split (s : State) (col row : Nat) {r n : Nat} (h : r < n) :
    ∃ rest : List Nat, s.drawSprite col row n =
      rest.foldl (Drawing.row s col row) (Drawing.row s col row (s.drawSprite col row r) r) := by
  refine ⟨(List.range (n - (r + 1))).map (fun i => r + 1 + i), ?_⟩
  have hs : List.range n = List.range r ++ r :: (List.range (n - (r + 1))).map (fun i => r + 1 + i) := by
    rw [show n = (r + 1) + (n - (r + 1)) by omega, List.range_add, List.range_succ]
    simp
  rw [State.drawSprite, hs, List.foldl_append, List.foldl_cons, State.drawSprite]

/-- A draw whose rows lie in memory and whose set bits lie in the framebuffer toggles exactly its offsets. -/
theorem State.drawSprite_spec (s : State) (col row n : Nat) (hm : ∀ r, r < n → s.effAddr r < Config.memSize)
    (hb : ∀ o ∈ s.spriteOffsets col row n, o < Config.fbCells) :
    (s.drawSprite col row n).abort = none ∧
      (∀ k, Frame.cell (s.drawSprite col row n).fb k = (s.cell k ^^ decide (k ∈ s.spriteOffsets col row n))) ∧
      (s.drawSprite col row n).hit = (s.spriteOffsets col row n).any s.cell := by
  obtain ⟨h1, h2, h3⟩ := Drawing.foldl_plot { fb := s.fb, hit := false, abort := none } rfl _
    (s.nodup_spriteOffsets col row n) hb
  rw [← s.drawSprite_eq col row n hm] at h1 h2 h3
  exact ⟨h1, h2, by rw [h3, Bool.false_or]; rfl⟩

/-- DXYN when nothing stops the draw. -/
theorem execDrw_of_none {x y : Reg} {n : Nibble} {s : State} {d : Drawing}
    (hd : s.drawSprite (s.reg x).toNat (s.reg y).toNat n.toNat = d) (h : d.abort = none) :
    execDrw x y n s = .next ({ s with fb := d.fb }.setReg flagReg (flagByte d.hit)) := by
  simp only [execDrw, hd, h]

/-- DXYN when a condition stops the draw: the cells drawn so far stay, the flag is not written. -/
theorem execDrw_of_some {x y : Reg} {n : Nibble} {s : State} {d : Drawing} {e : Fatal}
    (hd : s.drawSprite (s.reg x).toNat (s.reg y).toNat n.toNat = d) (h : d.abort = some e) :
    execDrw x y n s = .next ({ s with fb := d.fb }.raise e) := by
  simp only [execDrw, hd, h]

/-- The only conditions that stop a draw (spec/60_exceptions.md R209). -/
def DrawFault (a : Option Fatal) : Prop :=
  ∀ e, a = some e → (∃ o, e = .drawingOutOfBounds o) ∨ ∃ m, e = .memoryOutOfBounds m

theorem Drawing.plot_fault {d : Drawing} (h : DrawFault d.abort) (o : Nat) : DrawFault (d.plot o).abort := by
  unfold Drawing.plot
  split
  · exact h
  · split
    · intro e he; cases he; exact .inl ⟨o, rfl⟩
    · exact h

theorem Drawing.foldl_plot_fault {d : Drawing} (h : DrawFault d.abort) (offs : List Nat) :
    DrawFault (offs.foldl Drawing.plot d).abort := by
  induction offs generalizing d with
  | nil => exact h
  | cons o offs ih => exact ih (Drawing.plot_fault h o)

theorem State.drawSprite_fault (s : State) (col row n : Nat) : DrawFault (s.drawSprite col row n).abort := by
  have : ∀ (rs : List Nat) (d : Drawing), DrawFault d.abort → DrawFault (rs.foldl (Drawing.row s col row) d).abort := by
    intro rs
    induction rs with
    | nil => exact fun d h => h
    | cons r rs ih =>
      intro d h
      refine ih _ ?_
      by_cases hm : s.effAddr r < Config.memSize
      · rw [Drawing.row_of_lt hm]; exact Drawing.foldl_plot_fault h _
      · cases ha : d.abort with
        | some e => rw [Drawing.row_of_abort ha]; exact h
        | none =>
          rw [Drawing.row_of_le (Nat.not_lt.1 hm) _ _ ha]
          intro e he; cases he; exact .inr ⟨_, rfl⟩
  exact this _ _ (fun e he => by cases he)

/-- The two ways DXYN ends. -/
theorem execDrw_cases {x y : Reg} {n : Nibble} {s t : State} (h : execDrw x y n s = .next t) :
    (∃ fb hit, t = ({ s with fb := fb } : State).setReg flagReg (flagByte hit)) ∨
    (∃ fb e, t = ({ s with fb := fb } : State).raise e ∧ DrawFault (some e)) := by
  cases ha : (s.drawSprite (s.reg x).toNat (s.reg y).toNat n.toNat).abort with
  | none => rw [execDrw_of_none rfl ha] at h; cases h; exact .inl ⟨_, _, rfl⟩
  | some e =>
    rw [execDrw_of_some rfl ha] at h; cases h
    exact .inr ⟨_, e, rfl, ha ▸ s.drawSprite_fault _ _ _⟩

end Sys2Proof.Machine
end

