-- ==== Sys2Proof/Laws/State.lean ====
section
/-!
SUPPORT. Laws/State.lean: one lemma per field per named update, true by rfl, and what register reads see after each.
-/

namespace Sys2Proof.Machine

/-! ### setReg -/

@[simp] theorem State.setReg_v (s : State) (x : Reg) (b : Byte) : (s.setReg x b).v = s.v.set x b := rfl
@[simp] theorem State.setReg_i (s : State) (x : Reg) (b : Byte) : (s.setReg x b).i = s.i := rfl
@[simp] theorem State.setReg_ip (s : State) (x : Reg) (b : Byte) : (s.setReg x b).ip = s.ip := rfl
@[simp] theorem State.setReg_dt (s : State) (x : Reg) (b : Byte) : (s.setReg x b).dt = s.dt := rfl
@[simp] theorem State.setReg_st (s : State) (x : Reg) (b : Byte) : (s.setReg x b).st = s.st := rfl
@[simp] theorem State.setReg_mem (s : State) (x : Reg) (b : Byte) : (s.setReg x b).mem = s.mem := rfl
@[simp] theorem State.setReg_stack (s : State) (x : Reg) (b : Byte) : (s.setReg x b).stack = s.stack := rfl
@[simp] theorem State.setReg_fb (s : State) (x : Reg) (b : Byte) : (s.setReg x b).fb = s.fb := rfl
@[simp] theorem State.setReg_status (s : State) (x : Reg) (b : Byte) : (s.setReg x b).status = s.status := rfl
@[simp] theorem State.setReg_loadOpen (s : State) (x : Reg) (b : Byte) : (s.setReg x b).loadOpen = s.loadOpen := rfl
@[simp] theorem State.setReg_init (s : State) (x : Reg) (b : Byte) : (s.setReg x b).init = s.init := rfl
@[simp] theorem State.setReg_script (s : State) (x : Reg) (b : Byte) : (s.setReg x b).script = s.script := rfl
@[simp] theorem State.setReg_draws (s : State) (x : Reg) (b : Byte) : (s.setReg x b).draws = s.draws := rfl

/-! ### advance -/

@[simp] theorem State.advance_v (s : State) : s.advance.v = s.v := rfl
@[simp] theorem State.advance_i (s : State) : s.advance.i = s.i := rfl
@[simp] theorem State.advance_ip (s : State) : s.advance.ip = s.ip + 2 := rfl
@[simp] theorem State.advance_dt (s : State) : s.advance.dt = s.dt := rfl
@[simp] theorem State.advance_st (s : State) : s.advance.st = s.st := rfl
@[simp] theorem State.advance_mem (s : State) : s.advance.mem = s.mem := rfl
@[simp] theorem State.advance_stack (s : State) : s.advance.stack = s.stack := rfl
@[simp] theorem State.advance_fb (s : State) : s.advance.fb = s.fb := rfl
@[simp] theorem State.advance_status (s : State) : s.advance.status = s.status := rfl
@[simp] theorem State.advance_loadOpen (s : State) : s.advance.loadOpen = s.loadOpen := rfl
@[simp] theorem State.advance_init (s : State) : s.advance.init = s.init := rfl
@[simp] theorem State.advance_script (s : State) : s.advance.script = s.script := rfl
@[simp] theorem State.advance_draws (s : State) : s.advance.draws = s.draws := rfl

/-! ### jump -/

@[simp] theorem State.jump_v (s : State) (a : Word) : (s.jump a).v = s.v := rfl
@[simp] theorem State.jump_i (s : State) (a : Word) : (s.jump a).i = s.i := rfl
@[simp] theorem State.jump_ip (s : State) (a : Word) : (s.jump a).ip = a := rfl
@[simp] theorem State.jump_dt (s : State) (a : Word) : (s.jump a).dt = s.dt := rfl
@[simp] theorem State.jump_st (s : State) (a : Word) : (s.jump a).st = s.st := rfl
@[simp] theorem State.jump_mem (s : State) (a : Word) : (s.jump a).mem = s.mem := rfl
@[simp] theorem State.jump_stack (s : State) (a : Word) : (s.jump a).stack = s.stack := rfl
@[simp] theorem State.jump_fb (s : State) (a : Word) : (s.jump a).fb = s.fb := rfl
@[simp] theorem State.jump_status (s : State) (a : Word) : (s.jump a).status = s.status := rfl
@[simp] theorem State.jump_loadOpen (s : State) (a : Word) : (s.jump a).loadOpen = s.loadOpen := rfl
@[simp] theorem State.jump_init (s : State) (a : Word) : (s.jump a).init = s.init := rfl
@[simp] theorem State.jump_script (s : State) (a : Word) : (s.jump a).script = s.script := rfl
@[simp] theorem State.jump_draws (s : State) (a : Word) : (s.jump a).draws = s.draws := rfl

/-! ### call -/

@[simp] theorem State.call_v (s : State) (a : Word) : (s.call a).v = s.v := rfl
@[simp] theorem State.call_i (s : State) (a : Word) : (s.call a).i = s.i := rfl
@[simp] theorem State.call_ip (s : State) (a : Word) : (s.call a).ip = a := rfl
@[simp] theorem State.call_dt (s : State) (a : Word) : (s.call a).dt = s.dt := rfl
@[simp] theorem State.call_st (s : State) (a : Word) : (s.call a).st = s.st := rfl
@[simp] theorem State.call_mem (s : State) (a : Word) : (s.call a).mem = s.mem := rfl
@[simp] theorem State.call_stack (s : State) (a : Word) : (s.call a).stack = s.ip :: s.stack := rfl
@[simp] theorem State.call_fb (s : State) (a : Word) : (s.call a).fb = s.fb := rfl
@[simp] theorem State.call_status (s : State) (a : Word) : (s.call a).status = s.status := rfl
@[simp] theorem State.call_loadOpen (s : State) (a : Word) : (s.call a).loadOpen = s.loadOpen := rfl
@[simp] theorem State.call_init (s : State) (a : Word) : (s.call a).init = s.init := rfl
@[simp] theorem State.call_script (s : State) (a : Word) : (s.call a).script = s.script := rfl
@[simp] theorem State.call_draws (s : State) (a : Word) : (s.call a).draws = s.draws := rfl

/-! ### raise -/

@[simp] theorem State.raise_v (s : State) (e : Fatal) : (s.raise e).v = s.v := rfl
@[simp] theorem State.raise_i (s : State) (e : Fatal) : (s.raise e).i = s.i := rfl
@[simp] theorem State.raise_ip (s : State) (e : Fatal) : (s.raise e).ip = s.ip := rfl
@[simp] theorem State.raise_dt (s : State) (e : Fatal) : (s.raise e).dt = s.dt := rfl
@[simp] theorem State.raise_st (s : State) (e : Fatal) : (s.raise e).st = s.st := rfl
@[simp] theorem State.raise_mem (s : State) (e : Fatal) : (s.raise e).mem = s.mem := rfl
@[simp] theorem State.raise_stack (s : State) (e : Fatal) : (s.raise e).stack = s.stack := rfl
@[simp] theorem State.raise_fb (s : State) (e : Fatal) : (s.raise e).fb = s.fb := rfl
@[simp] theorem State.raise_status (s : State) (e : Fatal) : (s.raise e).status = .halted e := rfl
@[simp] theorem State.raise_loadOpen (s : State) (e : Fatal) : (s.raise e).loadOpen = s.loadOpen := rfl
@[simp] theorem State.raise_init (s : State) (e : Fatal) : (s.raise e).init = s.init := rfl
@[simp] theorem State.raise_script (s : State) (e : Fatal) : (s.raise e).script = s.script := rfl
@[simp] theorem State.raise_draws (s : State) (e : Fatal) : (s.raise e).draws = s.draws := rfl

/-! ### suspend -/

@[simp] theorem State.suspend_v (s : State) (k : SuspendKind) (x : Reg) : (s.suspend k x).v = s.v := rfl
@[simp] theorem State.suspend_i (s : State) (k : SuspendKind) (x : Reg) : (s.suspend k x).i = s.i := rfl
@[simp] theorem State.suspend_ip (s : State) (k : SuspendKind) (x : Reg) : (s.suspend k x).ip = s.ip := rfl
@[simp] theorem State.suspend_dt (s : State) (k : SuspendKind) (x : Reg) : (s.suspend k x).dt = s.dt := rfl
@[simp] theorem State.suspend_st (s : State) (k : SuspendKind) (x : Reg) : (s.suspend k x).st = s.st := rfl
@[simp] theorem State.suspend_mem (s : State) (k : SuspendKind) (x : Reg) : (s.suspend k x).mem = s.mem := rfl
@[simp] theorem State.suspend_stack (s : State) (k : SuspendKind) (x : Reg) : (s.suspend k x).stack = s.stack := rfl
@[simp] theorem State.suspend_fb (s : State) (k : SuspendKind) (x : Reg) : (s.suspend k x).fb = s.fb := rfl
@[simp] theorem State.suspend_status (s : State) (k : SuspendKind) (x : Reg) : (s.suspend k x).status = .pending k x := rfl
@[simp] theorem State.suspend_loadOpen (s : State) (k : SuspendKind) (x : Reg) : (s.suspend k x).loadOpen = s.loadOpen := rfl
@[simp] theorem State.suspend_init (s : State) (k : SuspendKind) (x : Reg) : (s.suspend k x).init = s.init := rfl
@[simp] theorem State.suspend_script (s : State) (k : SuspendKind) (x : Reg) : (s.suspend k x).script = s.script := rfl
@[simp] theorem State.suspend_draws (s : State) (k : SuspendKind) (x : Reg) : (s.suspend k x).draws = s.draws := rfl

/-! ### resume -/

@[simp] theorem State.resume_v (s : State) : s.resume.v = s.v := rfl
@[simp] theorem State.resume_i (s : State) : s.resume.i = s.i := rfl
@[simp] theorem State.resume_ip (s : State) : s.resume.ip = s.ip := rfl
@[simp] theorem State.resume_dt (s : State) : s.resume.dt = s.dt := rfl
@[simp] theorem State.resume_st (s : State) : s.resume.st = s.st := rfl
@[simp] theorem State.resume_mem (s : State) : s.resume.mem = s.mem := rfl
@[simp] theorem State.resume_stack (s : State) : s.resume.stack = s.stack := rfl
@[simp] theorem State.resume_fb (s : State) : s.resume.fb = s.fb := rfl
@[simp] theorem State.resume_status (s : State) : s.resume.status = .running := rfl
@[simp] theorem State.resume_loadOpen (s : State) : s.resume.loadOpen = s.loadOpen := rfl
@[simp] theorem State.resume_init (s : State) : s.resume.init = s.init := rfl
@[simp] theorem State.resume_script (s : State) : s.resume.script = s.script := rfl
@[simp] theorem State.resume_draws (s : State) : s.resume.draws = s.draws := rfl

/-! ### skipIf, setResultFlag, tickEvent -/

@[simp] theorem State.skipIf_ip (s : State) (c : Bool) : (s.skipIf c).ip = if c then s.ip + 2 else s.ip := by
  cases c <;> rfl
@[simp] theorem State.skipIf_v (s : State) (c : Bool) : (s.skipIf c).v = s.v := by cases c <;> rfl
@[simp] theorem State.skipIf_i (s : State) (c : Bool) : (s.skipIf c).i = s.i := by cases c <;> rfl
@[simp] theorem State.skipIf_dt (s : State) (c : Bool) : (s.skipIf c).dt = s.dt := by cases c <;> rfl
@[simp] theorem State.skipIf_st (s : State) (c : Bool) : (s.skipIf c).st = s.st := by cases c <;> rfl
@[simp] theorem State.skipIf_mem (s : State) (c : Bool) : (s.skipIf c).mem = s.mem := by cases c <;> rfl
@[simp] theorem State.skipIf_stack (s : State) (c : Bool) : (s.skipIf c).stack = s.stack := by cases c <;> rfl
@[simp] theorem State.skipIf_fb (s : State) (c : Bool) : (s.skipIf c).fb = s.fb := by cases c <;> rfl
@[simp] theorem State.skipIf_status (s : State) (c : Bool) : (s.skipIf c).status = s.status := by cases c <;> rfl
@[simp] theorem State.skipIf_loadOpen (s : State) (c : Bool) : (s.skipIf c).loadOpen = s.loadOpen := by cases c <;> rfl
@[simp] theorem State.skipIf_init (s : State) (c : Bool) : (s.skipIf c).init = s.init := by cases c <;> rfl
@[simp] theorem State.skipIf_script (s : State) (c : Bool) : (s.skipIf c).script = s.script := by cases c <;> rfl
@[simp] theorem State.skipIf_draws (s : State) (c : Bool) : (s.skipIf c).draws = s.draws := by cases c <;> rfl
@[simp] theorem State.setResultFlag_i (s : State) (x : Reg) (b c : Byte) : (s.setResultFlag x b c).i = s.i := rfl
@[simp] theorem State.setResultFlag_ip (s : State) (x : Reg) (b c : Byte) : (s.setResultFlag x b c).ip = s.ip := rfl
@[simp] theorem State.setResultFlag_dt (s : State) (x : Reg) (b c : Byte) : (s.setResultFlag x b c).dt = s.dt := rfl
@[simp] theorem State.setResultFlag_st (s : State) (x : Reg) (b c : Byte) : (s.setResultFlag x b c).st = s.st := rfl
@[simp] theorem State.setResultFlag_mem (s : State) (x : Reg) (b c : Byte) : (s.setResultFlag x b c).mem = s.mem := rfl
@[simp] theorem State.setResultFlag_stack (s : State) (x : Reg) (b c : Byte) : (s.setResultFlag x b c).stack = s.stack := rfl
@[simp] theorem State.setResultFlag_fb (s : State) (x : Reg) (b c : Byte) : (s.setResultFlag x b c).fb = s.fb := rfl
@[simp] theorem State.setResultFlag_status (s : State) (x : Reg) (b c : Byte) : (s.setResultFlag x b c).status = s.status := rfl
@[simp] theorem State.setResultFlag_loadOpen (s : State) (x : Reg) (b c : Byte) : (s.setResultFlag x b c).loadOpen = s.loadOpen := rfl
@[simp] theorem State.setResultFlag_init (s : State) (x : Reg) (b c : Byte) : (s.setResultFlag x b c).init = s.init := rfl
@[simp] theorem State.setResultFlag_script (s : State) (x : Reg) (b c : Byte) : (s.setResultFlag x b c).script = s.script := rfl
@[simp] theorem State.setResultFlag_draws (s : State) (x : Reg) (b c : Byte) : (s.setResultFlag x b c).draws = s.draws := rfl
@[simp] theorem tickEvent_v (s : State) : (tickEvent s).v = s.v := rfl
@[simp] theorem tickEvent_i (s : State) : (tickEvent s).i = s.i := rfl
@[simp] theorem tickEvent_ip (s : State) : (tickEvent s).ip = s.ip := rfl
@[simp] theorem tickEvent_dt (s : State) : (tickEvent s).dt = timerDown s.dt := rfl
@[simp] theorem tickEvent_st (s : State) : (tickEvent s).st = timerDown s.st := rfl
@[simp] theorem tickEvent_mem (s : State) : (tickEvent s).mem = s.mem := rfl
@[simp] theorem tickEvent_stack (s : State) : (tickEvent s).stack = s.stack := rfl
@[simp] theorem tickEvent_fb (s : State) : (tickEvent s).fb = s.fb := rfl
@[simp] theorem tickEvent_status (s : State) : (tickEvent s).status = s.status := rfl
@[simp] theorem tickEvent_loadOpen (s : State) : (tickEvent s).loadOpen = s.loadOpen := rfl
@[simp] theorem tickEvent_init (s : State) : (tickEvent s).init = s.init := rfl
@[simp] theorem tickEvent_script (s : State) : (tickEvent s).script = s.script := rfl
@[simp] theorem tickEvent_draws (s : State) : (tickEvent s).draws = s.draws := rfl

/-! ### Register reads -/

/-- A register read after a register write. -/
theorem State.reg_setReg (s : State) (x r : Reg) (b : Byte) :
    (s.setReg x b).reg r = if r = x then b else s.reg r := by
  simp only [State.reg, State.setReg, Fin.getElem_fin, Vector.getElem_set]
  by_cases h : r = x
  · simp [h]
  · rw [if_neg (fun hv => h (Fin.ext hv.symm)), if_neg h]

@[simp] theorem State.reg_setReg_same (s : State) (x : Reg) (b : Byte) : (s.setReg x b).reg x = b := by
  simp [State.reg_setReg]

theorem State.reg_setReg_ne (s : State) {x r : Reg} (b : Byte) (h : r ≠ x) : (s.setReg x b).reg r = s.reg r := by
  simp [State.reg_setReg, h]

/-- A register read after a flag-writing instruction: the flag register holds the flag, whatever the destination. -/
theorem State.reg_setResultFlag (s : State) (x r : Reg) (b c : Byte) :
    (s.setResultFlag x b c).reg r = if r = flagReg then c else if r = x then b else s.reg r := by
  simp only [State.setResultFlag, State.reg_setReg]

@[simp] theorem State.reg_advance (s : State) (r : Reg) : s.advance.reg r = s.reg r := rfl
@[simp] theorem State.reg_jump (s : State) (a : Word) (r : Reg) : (s.jump a).reg r = s.reg r := rfl
@[simp] theorem State.reg_call (s : State) (a : Word) (r : Reg) : (s.call a).reg r = s.reg r := rfl
@[simp] theorem State.reg_raise (s : State) (e : Fatal) (r : Reg) : (s.raise e).reg r = s.reg r := rfl
@[simp] theorem State.reg_suspend (s : State) (k : SuspendKind) (x : Reg) (r : Reg) : (s.suspend k x).reg r = s.reg r := rfl
@[simp] theorem State.reg_resume (s : State) (r : Reg) : s.resume.reg r = s.reg r := rfl
@[simp] theorem State.reg_skipIf (s : State) (c : Bool) (r : Reg) : (s.skipIf c).reg r = s.reg r := by cases c <;> rfl
@[simp] theorem State.reg_tickEvent (s : State) (r : Reg) : (tickEvent s).reg r = s.reg r := rfl

end Sys2Proof.Machine
end

