-- ==== Sys2Proof/Laws/Operands.lean ====
section
/-!
SUPPORT. Laws/Operands.lean: operand values and flags as numbers, and what the block stores and loads move.
-/

namespace Sys2Proof.Machine

@[simp] theorem addrWord_toNat (nnn : Addr) : (addrWord nnn).toNat = nnn.toNat := by
  have := nnn.isLt
  simp only [addrWord, BitVec.toNat_setWidth]; omega

theorem State.offsetTarget_toNat (s : State) (nnn : Addr) :
    (s.offsetTarget nnn).toNat = (s.reg 0).toNat + nnn.toNat := by
  have := nnn.isLt
  have := (s.reg 0).isLt
  simp only [State.offsetTarget, BitVec.toNat_add, addrWord_toNat, BitVec.toNat_setWidth]; omega

theorem glyphAddr_toNat (b : Byte) : (glyphAddr b).toNat = 5 * b.toNat := by
  have := b.isLt
  simp only [glyphAddr, BitVec.toNat_ofNat]; omega

/-! ### Flags -/

@[simp] theorem flagByte_toNat (c : Bool) : (flagByte c).toNat = if c = true then 1 else 0 := by cases c <;> rfl

theorem carryFlag_toNat (a b : Byte) : (carryFlag a b).toNat = if a.toNat + b.toNat > 255 then 1 else 0 := by
  simp [carryFlag]

theorem borrowFlag_toNat (a b : Byte) : (borrowFlag a b).toNat = if a.toNat < b.toNat then 1 else 0 := by
  simp [borrowFlag]

theorem shiftedOutLow_toNat (b : Byte) : (shiftedOutLow b).toNat = b.toNat % 2 := by
  simp only [shiftedOutLow, flagByte_toNat, BitVec.getLsbD, Nat.testBit_zero, decide_eq_true_eq]; split <;> omega

theorem shiftedOutHigh_toNat (b : Byte) : (shiftedOutHigh b).toNat = b.toNat / 128 := by
  have := b.isLt
  simp only [shiftedOutHigh, flagByte_toNat, BitVec.getLsbD, Nat.testBit_eq_decide_div_mod_eq, decide_eq_true_eq]
  split <;> omega

/-! ### Blocks -/

@[simp] theorem decimalDigits_length (b : Byte) : (decimalDigits b).length = 3 := rfl

theorem decimalDigits_toNat (b : Byte) :
    ((decimalDigits b).getD 0 0).toNat = b.toNat / 100 ∧ ((decimalDigits b).getD 1 0).toNat = b.toNat / 10 % 10 ∧
      ((decimalDigits b).getD 2 0).toNat = b.toNat % 10 := by
  have := b.isLt
  simp only [decimalDigits, List.getD_cons_zero, List.getD_cons_succ, BitVec.toNat_ofNat]; omega

@[simp] theorem State.regBytes_length (s : State) (x : Reg) : (s.regBytes x).length = x.val + 1 := by
  have := x.isLt
  simp only [State.regBytes, List.length_take, Vector.length_toList]; omega

theorem State.regBytes_getD (s : State) {x r : Reg} (h : r ≤ x) : (s.regBytes x).getD r.val 0 = s.reg r := by
  have h' : r.val < x.val + 1 := Nat.lt_succ_of_le h
  simp [State.regBytes, List.getD_eq_getElem?_getD, h', State.reg]

/-- The registers after a block load. -/
theorem State.reg_loadedRegs (s : State) (x r : Reg) :
    ({ s with v := s.loadedRegs x } : State).reg r = if r ≤ x then Mem.read s.mem (s.effAddr r.val) else s.reg r := by
  simp only [State.reg, State.loadedRegs, Fin.getElem_fin, Vector.getElem_ofFn, Fin.le_def]

/-- What memory reads as after FX33's or FX55's store. -/
theorem State.read_blockStore (s : State) (bs : List Byte) (k : Nat) (hk : k < bs.length) :
    Mem.read (Mem.writeBytes s.mem (s.effAddr 0) bs) (s.effAddr k) = bs.getD k 0 := by
  rw [Mem.read_writeBytes, if_pos (by simp only [State.effAddr]; omega)]
  congr 1; simp only [State.effAddr]; omega

theorem State.read_blockStore_ne (s : State) (bs : List Byte) (a : Nat)
    (ha : a < s.effAddr 0 ∨ s.effAddr 0 + bs.length ≤ a) :
    Mem.read (Mem.writeBytes s.mem (s.effAddr 0) bs) a = Mem.read s.mem a := by
  rw [Mem.read_writeBytes, if_neg (by omega)]

end Sys2Proof.Machine
end

