-- ==== Sys2Proof/Laws/PerInstr.lean ====
section
/-!
SUPPORT. Laws/PerInstr.lean: what is proved per instruction. `TableRow`: the encoded word has the fixed bits of the
instruction's row of spec/30_encoding.md R74 (the row's mask selects the row's match), for every operand.
-/

namespace Sys2Proof.Laws.TableRow

/-- The mask of the instruction's row (R74). -/
def mask : Instr → Word
  | .cls | .ret => 0xFFFF
  | .sys _ | .jp _ | .call _ | .seImm _ _ | .sneImm _ _ | .ldImm _ _ | .addImm _ _ | .ldI _ | .jpV0 _ | .rnd _ _
  | .drw _ _ _ => 0xF000
  | .seReg _ _ | .ldReg _ _ | .orReg _ _ | .andReg _ _ | .xorReg _ _ | .addReg _ _ | .subReg _ _ | .shr _ _ | .subn _ _
  | .shl _ _ | .sneReg _ _ => 0xF00F
  | .skp _ | .sknp _ | .ldVxDt _ | .ldVxK _ | .ldDtVx _ | .ldStVx _ | .addI _ | .ldF _ | .ldB _ | .storeRegs _
  | .loadRegs _ => 0xF0FF

/-- The match value of the instruction's row (R74). -/
def value : Instr → Word
  | .cls => 0x00E0
  | .ret => 0x00EE
  | .sys _ => 0x0000
  | .jp _ => 0x1000
  | .call _ => 0x2000
  | .seImm _ _ => 0x3000
  | .sneImm _ _ => 0x4000
  | .seReg _ _ => 0x5000
  | .ldImm _ _ => 0x6000
  | .addImm _ _ => 0x7000
  | .ldReg _ _ => 0x8000
  | .orReg _ _ => 0x8001
  | .andReg _ _ => 0x8002
  | .xorReg _ _ => 0x8003
  | .addReg _ _ => 0x8004
  | .subReg _ _ => 0x8005
  | .shr _ _ => 0x8006
  | .subn _ _ => 0x8007
  | .shl _ _ => 0x800E
  | .sneReg _ _ => 0x9000
  | .ldI _ => 0xA000
  | .jpV0 _ => 0xB000
  | .rnd _ _ => 0xC000
  | .drw _ _ _ => 0xD000
  | .skp _ => 0xE09E
  | .sknp _ => 0xE0A1
  | .ldVxDt _ => 0xF007
  | .ldVxK _ => 0xF00A
  | .ldDtVx _ => 0xF015
  | .ldStVx _ => 0xF018
  | .addI _ => 0xF01E
  | .ldF _ => 0xF029
  | .ldB _ => 0xF033
  | .storeRegs _ => 0xF055
  | .loadRegs _ => 0xF065

/-- The encoded word selects the instruction's row. -/
def Statement (i : Instr) : Prop := encode i &&& mask i = value i

theorem formA (op : Nibble) (nnn : Addr) : encodeA op nnn &&& 0xF000#16 = op ++ 0#12 := by
  rw [show (0xF000#16 : Word) = 0xF#4 ++ 0#12 from rfl, encodeA, BitVec.and_append, BitVec.and_zero,
    show (0xF#4 : Nibble) = BitVec.allOnes 4 from rfl, BitVec.and_allOnes]

theorem formXI (op : Nibble) (x : Reg) (nn : Byte) : encodeXI op x nn &&& 0xF000#16 = (op ++ 0#4) ++ 0#8 := by
  rw [show (0xF000#16 : Word) = (0xF#4 ++ 0#4) ++ 0#8 from rfl, encodeXI, BitVec.and_append, BitVec.and_append,
    BitVec.and_zero, BitVec.and_zero, show (0xF#4 : Nibble) = BitVec.allOnes 4 from rfl, BitVec.and_allOnes]

theorem formX (op : Nibble) (x : Reg) (nn : Byte) : encodeXI op x nn &&& 0xF0FF#16 = (op ++ 0#4) ++ nn := by
  rw [show (0xF0FF#16 : Word) = (0xF#4 ++ 0#4) ++ 0xFF#8 from rfl, encodeXI, BitVec.and_append, BitVec.and_append,
    BitVec.and_zero, show (0xF#4 : Nibble) = BitVec.allOnes 4 from rfl, show (0xFF#8 : Byte) = BitVec.allOnes 8 from rfl,
    BitVec.and_allOnes, BitVec.and_allOnes]

theorem formXY (op : Nibble) (x y : Reg) (d : Nibble) :
    encodeXY op x y d &&& 0xF00F#16 = ((op ++ 0#4) ++ 0#4) ++ d := by
  rw [show (0xF00F#16 : Word) = ((0xF#4 ++ 0#4) ++ 0#4) ++ 0xF#4 from rfl, encodeXY, BitVec.and_append,
    BitVec.and_append, BitVec.and_append, BitVec.and_zero, BitVec.and_zero,
    show (0xF#4 : Nibble) = BitVec.allOnes 4 from rfl, BitVec.and_allOnes, BitVec.and_allOnes]

theorem formXYN (op : Nibble) (x y : Reg) (d : Nibble) :
    encodeXY op x y d &&& 0xF000#16 = ((op ++ 0#4) ++ 0#4) ++ 0#4 := by
  rw [show (0xF000#16 : Word) = ((0xF#4 ++ 0#4) ++ 0#4) ++ 0#4 from rfl, encodeXY, BitVec.and_append,
    BitVec.and_append, BitVec.and_append, BitVec.and_zero, BitVec.and_zero, BitVec.and_zero,
    show (0xF#4 : Nibble) = BitVec.allOnes 4 from rfl, BitVec.and_allOnes]

theorem cls : Statement .cls := rfl
theorem ret : Statement .ret := rfl
theorem sys (nnn : Addr) : Statement (.sys nnn) := formA 0x0 nnn
theorem jp (nnn : Addr) : Statement (.jp nnn) := formA 0x1 nnn
theorem call (nnn : Addr) : Statement (.call nnn) := formA 0x2 nnn
theorem seImm (x : Reg) (nn : Byte) : Statement (.seImm x nn) := formXI 0x3 x nn
theorem sneImm (x : Reg) (nn : Byte) : Statement (.sneImm x nn) := formXI 0x4 x nn
theorem seReg (x y : Reg) : Statement (.seReg x y) := formXY 0x5 x y 0x0
theorem ldImm (x : Reg) (nn : Byte) : Statement (.ldImm x nn) := formXI 0x6 x nn
theorem addImm (x : Reg) (nn : Byte) : Statement (.addImm x nn) := formXI 0x7 x nn
theorem ldReg (x y : Reg) : Statement (.ldReg x y) := formXY 0x8 x y 0x0
theorem orReg (x y : Reg) : Statement (.orReg x y) := formXY 0x8 x y 0x1
theorem andReg (x y : Reg) : Statement (.andReg x y) := formXY 0x8 x y 0x2
theorem xorReg (x y : Reg) : Statement (.xorReg x y) := formXY 0x8 x y 0x3
theorem addReg (x y : Reg) : Statement (.addReg x y) := formXY 0x8 x y 0x4
theorem subReg (x y : Reg) : Statement (.subReg x y) := formXY 0x8 x y 0x5
theorem shr (x y : Reg) : Statement (.shr x y) := formXY 0x8 x y 0x6
theorem subn (x y : Reg) : Statement (.subn x y) := formXY 0x8 x y 0x7
theorem shl (x y : Reg) : Statement (.shl x y) := formXY 0x8 x y 0xE
theorem sneReg (x y : Reg) : Statement (.sneReg x y) := formXY 0x9 x y 0x0
theorem ldI (nnn : Addr) : Statement (.ldI nnn) := formA 0xA nnn
theorem jpV0 (nnn : Addr) : Statement (.jpV0 nnn) := formA 0xB nnn
theorem rnd (x : Reg) (nn : Byte) : Statement (.rnd x nn) := formXI 0xC x nn
theorem drw (x y : Reg) (n : Nibble) : Statement (.drw x y n) := formXYN 0xD x y n
theorem skp (x : Reg) : Statement (.skp x) := formX 0xE x 0x9E
theorem sknp (x : Reg) : Statement (.sknp x) := formX 0xE x 0xA1
theorem ldVxDt (x : Reg) : Statement (.ldVxDt x) := formX 0xF x 0x07
theorem ldVxK (x : Reg) : Statement (.ldVxK x) := formX 0xF x 0x0A
theorem ldDtVx (x : Reg) : Statement (.ldDtVx x) := formX 0xF x 0x15
theorem ldStVx (x : Reg) : Statement (.ldStVx x) := formX 0xF x 0x18
theorem addI (x : Reg) : Statement (.addI x) := formX 0xF x 0x1E
theorem ldF (x : Reg) : Statement (.ldF x) := formX 0xF x 0x29
theorem ldB (x : Reg) : Statement (.ldB x) := formX 0xF x 0x33
theorem storeRegs (x : Reg) : Statement (.storeRegs x) := formX 0xF x 0x55
theorem loadRegs (x : Reg) : Statement (.loadRegs x) := formX 0xF x 0x65

end Sys2Proof.Laws.TableRow
end

