-- ==== Sys2Proof/Laws/Step.lean ====
section
/-!
SUPPORT. Laws/Step.lean: everything a cycle, an event and a step can do, once each, so that no later proof unfolds them.
-/

namespace Sys2Proof.Machine

/-- A cycle answers a next state in one of three ways: a failed fetch, an illegal word, an instruction. -/
theorem runCycle_cases {s t : State} (h : runCycle s = .next t) :
    (Config.memSize ≤ s.ip.toNat + 1 ∧ t = s.raise (.memoryOutOfBounds (max s.ip.toNat Config.memSize))) ∨
    (∃ w, s.ip.toNat + 1 < Config.memSize ∧ s.fetch = .ok w ∧ decode w = none ∧
      t = s.advance.raise (.illegalInstruction w)) ∨
    (∃ w i, s.ip.toNat + 1 < Config.memSize ∧ s.fetch = .ok w ∧ decode w = some i ∧ exec i s.advance = .next t) := by
  by_cases hip : s.ip.toNat + 1 < Config.memSize
  · have hf := State.fetch_of_lt hip
    simp only [runCycle, hf] at h
    split at h
    · rename_i hd; cases h; exact .inr (.inl ⟨_, hip, hf, hd, rfl⟩)
    · rename_i i hd; exact .inr (.inr ⟨_, i, hip, hf, hd, h⟩)
  · have hf := State.fetch_of_le (s := s) (Nat.not_lt.1 hip)
    simp only [runCycle, hf] at h
    cases h
    exact .inl ⟨Nat.not_lt.1 hip, rfl⟩

/-- What an event that is enabled does. -/
theorem event_cases {e : Event} {s t : State} (h : event e s = .next t) :
    (e = .reset ∧ t = resetEvent s) ∨
    (∃ bytes, e = .load bytes ∧ s.status = .running ∧ s.loadOpen = true ∧ t = loadEvent bytes s) ∨
    (e = .cycle ∧ s.status = .running ∧ runCycle { s with loadOpen := false } = .next t) ∨
    (∃ k x, e = .resolveKey k ∧ s.status = .pending .waitForKey x ∧ t = resolveKeyEvent k x s) ∨
    (∃ held kind x, e = .resolveSkip held ∧ kind ≠ .waitForKey ∧ s.status = .pending kind x ∧
      t = resolveSkipEvent kind held s) ∨
    (e = .tick ∧ t = tickEvent s) ∨
    (e = .readOut ∧ t = s) := by
  cases e with
  | reset => cases h; simp
  | load bytes =>
    simp only [event] at h
    split at h
    · rename_i hs; cases h; simp [hs]
    · cases h
  | cycle =>
    simp only [event] at h
    split at h
    · rename_i hs; exact .inr (.inr (.inl ⟨rfl, hs, h⟩))
    · cases h
  | resolveKey k =>
    simp only [event] at h
    split at h
    · rename_i x hs; cases h; simp [hs]
    · cases h
  | resolveSkip held =>
    simp only [event] at h
    split at h
    · rename_i x hs; cases h; simp [hs]
    · rename_i x hs; cases h; simp [hs]
    · cases h
  | tick => cases h; simp
  | readOut => cases h; simp

/-- A step is one enabled event, the script's first or one that an empty script leaves to the host, or a longer wait; an
answer and a longer wait use up a free value. -/
theorem step_cases {s t : State} (h : step s = .next t) :
    (∃ e rest, s.script = e :: rest ∧ event e { s with script := rest } = .next t) ∨
    (s.script = [] ∧ s.status = .running ∧ event .cycle s = .next t) ∨
    (s.script = [] ∧ (∃ kind x, s.status = .pending kind x) ∧
      ∃ e, (e = .resolveKey (Config.key s.draws) ∨ e = .resolveSkip (Config.held s.draws)) ∧
        event e (waitOn s) = .next t) ∨
    (s.script = [] ∧ (∃ x, s.status = .pending .waitForKey x) ∧ t = waitOn s) := by
  simp only [step, nextEvent] at h
  split at h
  · rename_i e rest hs; exact .inl ⟨e, rest, hs, h⟩
  · rename_i hs
    simp only [unscriptedEvent] at h
    split at h
    · rename_i hr; exact .inr (.inl ⟨hs, hr, h⟩)
    · rename_i x hp
      split at h
      · exact .inr (.inr (.inl ⟨hs, ⟨_, x, hp⟩, _, .inl rfl, h⟩))
      · cases h; exact .inr (.inr (.inr ⟨hs, ⟨x, hp⟩, rfl⟩))
    · rename_i kind x hk hp; exact .inr (.inr (.inl ⟨hs, ⟨kind, x, hp⟩, _, .inr rfl, h⟩))
    · cases h

@[simp] theorem waitOn_status (s : State) : (waitOn s).status = s.status := rfl
@[simp] theorem waitOn_init (s : State) : (waitOn s).init = s.init := rfl

/-- No instruction changes the machine's parameters. -/
theorem exec_init {i : Instr} {s t : State} (h : exec i s = .next t) : t.init = s.init := by
  cases i <;> simp only [exec] at h <;> try (cases h; simp)
  case ret => simp only [execRet] at h; split at h <;> cases h <;> rfl
  case ldF => simp only [execLdF] at h; split at h <;> cases h <;> rfl
  case ldB => simp only [execLdB] at h; split at h <;> cases h <;> rfl
  case storeRegs => simp only [execStoreRegs] at h; split at h <;> cases h <;> rfl
  case loadRegs => simp only [execLoadRegs] at h; split at h <;> cases h <;> rfl
  case drw => simp only [execDrw] at h; split at h <;> cases h <;> rfl

/-- An unscripted step of a running core is a cycle. -/
theorem step_running {s : State} (hs : s.script = []) (hr : s.status = .running) :
    step s = runCycle { s with loadOpen := false } := by
  simp [step, nextEvent, unscriptedEvent, event, hs, hr]

/-- An unscripted step of a core that waits for a key is an answer or one more moment of the wait (R166). -/
theorem step_waiting {s : State} {x : Reg} (hs : s.script = []) (hp : s.status = .pending .waitForKey x) :
    step s = if Config.answered s.draws then event (.resolveKey (Config.key s.draws)) (waitOn s) else .next (waitOn s) := by
  simp [step, nextEvent, unscriptedEvent, hs, hp]

/-- A cycle on a legal word runs the instruction on the state with `ip` advanced. -/
theorem runCycle_of_decode {s : State} {w : Word} {i : Instr} (hf : s.fetch = .ok w) (hd : decode w = some i) :
    runCycle s = exec i s.advance := by
  simp only [runCycle, hf, hd]

/-- The word placed for the next fetch is the one it reads. -/
theorem fetch_placeWord (s : State) (w : Word) : (placeWord s w).fetch = .ok w := by
  have hp : (fetchPlace s).toNat + 1 < Config.memSize := by
    unfold fetchPlace; split
    · assumption
    · decide
  rw [State.fetch_of_lt (by exact hp)]
  simp [placeWord, Mem.writeWord, Mem.read_writeBytes]

/-- The host's question: a placed instruction is the one the next step runs. -/
theorem step_withFetchWord (s : State) (nbits w : Nat) (i : Instr) (h : decodeTableWord nbits w = some i) :
    step (s.withFetchWord nbits w) =
      exec i { placeWord s (tableWord nbits w) with ip := fetchPlace s + 2, loadOpen := false } := by
  rw [decodeTableWord_eq] at h
  rw [State.withFetchWord, step_running rfl rfl,
    runCycle_of_decode (w := tableWord nbits w) (by exact fetch_placeWord s _) h]
  rfl

/-- What the `Cycle` event reports is read off the latch (R17). -/
theorem State.cycleResult_cases (s : State) :
    (s.status = .running ∧ s.cycleResult = .ok) ∨
    (∃ k x, s.status = .pending k x ∧ s.cycleResult = .suspend k x) ∨
    (∃ e, s.status = .halted e ∧ s.cycleResult = .fatal e) := by
  unfold State.cycleResult; cases s.status <;> simp

end Sys2Proof.Machine
end

