-- ==== Sys2Proof/Laws/Reset.lean ====
section
/-!
SUPPORT. Laws/Reset.lean: what memory holds after a reset for any `INIT` and `FONT`, that the reset state is the reset for
the spec's default parameters (spec/70_reset_and_hazards.md R230), and that a step keeps the parameters (R6).
-/

namespace Sys2Proof.Machine

theorem Mem.wf_nil : Mem.wf [] := ⟨.nil, by simp⟩

theorem reset_mem_wf : Mem.wf State.reset.mem := Mem.wf_nil

@[simp] theorem resetWith_mem (p : Init) : (State.resetWith p).mem = p.mem := rfl
@[simp] theorem resetWith_init (p : Init) : (State.resetWith p).init = p := rfl
@[simp] theorem resetEvent_mem (s : State) : (resetEvent s).mem = s.init.mem := rfl
@[simp] theorem resetEvent_init (s : State) : (resetEvent s).init = s.init := rfl

theorem resetWith_default : State.resetWith Init.default = State.reset := rfl

/-- Parameters given byte by byte are canonical. -/
theorem Init.withMemory_wf (p : Init) (font : Vector Byte 80) (rest : Vector Byte 4016) :
    Mem.wf (p.withMemory font rest).mem :=
  Mem.wf_writeBytes (m := []) Mem.wf_nil (font.toList ++ rest.toList) (by simp)

/-- Parameters given byte by byte hold `FONT`, then `INIT.MEM`. -/
theorem Init.read_withMemory (p : Init) (font : Vector Byte 80) (rest : Vector Byte 4016) (a : Nat) :
    Mem.read (p.withMemory font rest).mem a =
      if a < 4096 then (font.toList ++ rest.toList).getD a 0 else Mem.initial a := by
  rw [Init.withMemory, Mem.read_writeBytes]
  simp [Mem.read]

/-- The default parameters list nothing: a reset leaves the glyphs at [0, 80) and 0 above. -/
theorem Mem.initial_of_le {a : Nat} (h : 80 ≤ a) : Mem.initial a = 0 := by
  have : glyphTable.length ≤ a := Nat.le_trans (by decide) h
  simp [Mem.initial, List.getD_eq_getElem?_getD, this]

/-- A reset in a run uses the run's own parameters: no event changes them. -/
theorem event_init {e : Event} {s t : State} (h : event e s = .next t) : t.init = s.init := by
  rcases event_cases h with ⟨-, rfl⟩ | ⟨_, -, -, -, rfl⟩ | ⟨-, -, h⟩ | ⟨_, _, -, -, rfl⟩ | ⟨_, _, _, -, -, -, rfl⟩ |
    ⟨-, rfl⟩ | ⟨-, rfl⟩
  · rfl
  · rfl
  · rcases runCycle_cases h with ⟨-, rfl⟩ | ⟨_, -, -, -, rfl⟩ | ⟨_, _, -, -, -, h⟩
    · rfl
    · rfl
    · have hi := exec_init h; exact hi
  · rfl
  · simp [resolveSkipEvent]
  · rfl
  · rfl

/-- No step changes the machine's parameters. -/
theorem step_init {s t : State} (h : step s = .next t) : t.init = s.init := by
  rcases step_cases h with ⟨_, _, -, h⟩ | ⟨-, -, h⟩ | ⟨-, -, _, -, h⟩ | ⟨-, -, rfl⟩
  · have hi := event_init h; exact hi
  · exact event_init h
  · have hi := event_init h; exact hi
  · rfl

end Sys2Proof.Machine
end

