-- ==== Sys2Proof/Tests/Slice0.lean ====
section
/-!
SUPPORT. Tests/Slice0.lean: the model's own tests. Expected results come from spec/95_test_vectors.md (a test names its
vector, S<n> or T-<id>), the words from the encoding columns of spec/30_encoding.md R74. The witness theorems at the end
show, for each obligation with hypotheses, values that meet all of them.
-/

namespace Sys2Proof.Tests

open Sys2Proof.Machine

/-- A state after reset with some registers, the address register and some bytes of memory set. -/
def st (rs : List (Reg × Byte)) (i : Word := 0) (m : List (Nat × Byte) := []) : State :=
  rs.foldl (fun s r => s.setReg r.1 r.2)
    { State.reset with i := i, mem := m.foldl (fun m c => Mem.write m c.1 c.2) [] }

/-- The next state of an outcome, if it is one. -/
def nextOf : Host.Outcome State Fault Refusal → Option State
  | .next t => some t
  | _ => none

/-- One step that runs the word `w`, and a view of the state it gives. -/
def run {α : Type} (s : State) (w : Nat) (view : State → α) : Option α :=
  (nextOf (step (s.withFetchWord 16 w))).map view

/-- One event, and a view of the state it gives. -/
def after {α : Type} (s : State) (e : Event) (view : State → α) : Option α := (nextOf (event e s)).map view

/-- `V[x]` and `V[15]`. -/
def regFlag (x : Reg) (t : State) : Byte × Byte := (t.reg x, t.reg 15)

/-- Three bytes of memory from an address on. -/
def three (a : Nat) (t : State) : Byte × Byte × Byte :=
  (Mem.read t.mem a, Mem.read t.mem (a + 1), Mem.read t.mem (a + 2))

/-! ### Well-formedness, encoding, decoding -/

theorem test_sys_of_cls_word_is_ill_formed : (Instr.sys 0x0E0#12).wellFormed = false := by decide
theorem test_sys_of_ret_word_is_ill_formed : (Instr.sys 0x0EE#12).wellFormed = false := by decide
theorem test_sys_between_is_well_formed : (Instr.sys 0x0E1#12).wellFormed = true := by decide

theorem test_decode_cls : decode 0x00E0#16 = some .cls := by decide
theorem test_decode_ret : decode 0x00EE#16 = some .ret := by decide
theorem test_decode_sys : decode 0x00E1#16 = some (.sys 0x0E1#12) := by decide
theorem test_decode_jp : decode 0x1ABC#16 = some (.jp 0xABC#12) := by decide
theorem test_decode_call : decode 0x2210#16 = some (.call 0x210#12) := by decide
theorem test_decode_seImm : decode 0x3A42#16 = some (.seImm 10 0x42#8) := by decide
theorem test_decode_sneImm : decode 0x4A42#16 = some (.sneImm 10 0x42#8) := by decide
theorem test_decode_seReg : decode 0x5120#16 = some (.seReg 1 2) := by decide
theorem test_decode_ldImm : decode 0x6FAB#16 = some (.ldImm 15 0xAB#8) := by decide
theorem test_decode_addImm : decode 0x7301#16 = some (.addImm 3 0x01#8) := by decide
theorem test_decode_ldReg : decode 0x8120#16 = some (.ldReg 1 2) := by decide
theorem test_decode_orReg : decode 0x8121#16 = some (.orReg 1 2) := by decide
theorem test_decode_andReg : decode 0x8122#16 = some (.andReg 1 2) := by decide
theorem test_decode_xorReg : decode 0x8123#16 = some (.xorReg 1 2) := by decide
theorem test_decode_addReg : decode 0x8F14#16 = some (.addReg 15 1) := by decide
theorem test_decode_subReg : decode 0x80F5#16 = some (.subReg 0 15) := by decide
theorem test_decode_shr : decode 0x8106#16 = some (.shr 1 0) := by decide
theorem test_decode_subn : decode 0x8017#16 = some (.subn 0 1) := by decide
theorem test_decode_shl : decode 0x812E#16 = some (.shl 1 2) := by decide
theorem test_decode_sneReg : decode 0x9120#16 = some (.sneReg 1 2) := by decide
theorem test_decode_ldI : decode 0xAFFF#16 = some (.ldI 0xFFF#12) := by decide
theorem test_decode_jpV0 : decode 0xB300#16 = some (.jpV0 0x300#12) := by decide
theorem test_decode_rnd : decode 0xC30F#16 = some (.rnd 3 0x0F#8) := by decide
theorem test_decode_drw : decode 0xD01F#16 = some (.drw 0 1 15#4) := by decide
theorem test_decode_skp : decode 0xE39E#16 = some (.skp 3) := by decide
theorem test_decode_sknp : decode 0xE3A1#16 = some (.sknp 3) := by decide
theorem test_decode_ldVxDt : decode 0xF207#16 = some (.ldVxDt 2) := by decide
theorem test_decode_ldVxK : decode 0xF50A#16 = some (.ldVxK 5) := by decide
theorem test_decode_ldDtVx : decode 0xF015#16 = some (.ldDtVx 0) := by decide
theorem test_decode_ldStVx : decode 0xF118#16 = some (.ldStVx 1) := by decide
theorem test_decode_addI : decode 0xF21E#16 = some (.addI 2) := by decide
theorem test_decode_ldF : decode 0xFA29#16 = some (.ldF 10) := by decide
theorem test_decode_ldB : decode 0xF133#16 = some (.ldB 1) := by decide
theorem test_decode_storeRegs : decode 0xF255#16 = some (.storeRegs 2) := by decide
theorem test_decode_loadRegs : decode 0xF265#16 = some (.loadRegs 2) := by decide

/-- T-F6 to T-F11: words that select no row. -/
theorem test_decode_illegal : decode 0x5121#16 = none ∧ decode 0x9ABF#16 = none ∧ decode 0x8128#16 = none ∧
    decode 0xE19F#16 = none ∧ decode 0xF100#16 = none ∧ decode 0xF075#16 = none := by decide

theorem test_decode_table_row : decodeTableWord 16 0xD01F = some (.drw 0 1 15#4) := by decide

/-! ### The cycle -/

/-- T-F1: high byte first. -/
theorem test_fetch_high_byte_first : run (st []) 0x1234 (·.ip) = some 0x234 := by decide
/-- T-F2: an odd address is fetched as it is. -/
theorem test_fetch_odd_address :
    after { st [] 0 [(0x201, 0x01), (0x202, 0x60)] with ip := 0x201 } .cycle (fun t => (t.ip, t.stack)) =
      some (0x160, [0x203]) := by decide
/-- T-F3: the fetch at 0xFFF halts, `ip` not advanced. -/
theorem test_fetch_at_last_byte :
    after { st [] with ip := 0xFFF } .cycle (fun t => (t.ip, t.cycleResult)) =
      some (0xFFF, .fatal (.memoryOutOfBounds 4096)) := by decide
/-- T-F5, second cycle: `ip` above memory. -/
theorem test_fetch_above_memory :
    after { st [] with ip := 0x10FE } .cycle (fun t => (t.ip, t.cycleResult)) =
      some (0x10FE, .fatal (.memoryOutOfBounds 4350)) := by decide
/-- T-F6: an illegal word halts after the advance. -/
theorem test_illegal_word : run (st []) 0x5121 (fun t => (t.ip, t.status)) =
    some (0x202, .halted (.illegalInstruction 0x5121)) := by decide

/-! ### Control transfer -/

/-- T-C2: last in, first out. -/
theorem test_ret : run { st [] with stack := [0x300, 0x204] } 0x00EE (fun t => (t.ip, t.stack)) =
    some (0x300, [0x204]) := by decide
/-- T-C3. -/
theorem test_ret_empty : run (st []) 0x00EE (fun t => (t.ip, t.stack, t.cycleResult)) =
    some (0x202, [], .fatal .returnOutsideSubroutine) := by decide
/-- T-C4: 0NNN is a call. -/
theorem test_sys : run (st []) 0x0300 (fun t => (t.ip, t.stack)) = some (0x300, [0x202]) := by decide
/-- T-C5: the all-zero word is a call to 0. -/
theorem test_sys_zero : run (st []) 0x0000 (fun t => (t.ip, t.stack)) = some (0, [0x202]) := by decide
/-- T-C6. -/
theorem test_jp : run (st []) 0x1ABC (fun t => (t.ip, t.stack)) = some (0xABC, []) := by decide
/-- T-C9: a jump to itself. -/
theorem test_jp_self : run (st []) 0x1200 (·.ip) = some 0x200 := by decide
/-- T-C7. -/
theorem test_call : run (st []) 0x2300 (fun t => (t.ip, t.stack)) = some (0x300, [0x202]) := by decide
/-- T-C10. -/
theorem test_jpV0 : run (st [(0, 0x10)]) 0xB300 (·.ip) = some 0x310 := by decide
/-- T-C11: no masking to 12 bits. -/
theorem test_jpV0_top : run (st [(0, 0xFF)]) 0xBFFF (·.ip) = some 0x10FE := by decide

/-! ### Skips -/

/-- T-S1. -/
theorem test_seImm : run (st [(10, 0x42)]) 0x3A42 (·.ip) = some 0x204 := by decide
/-- T-S2. -/
theorem test_seImm_not : run (st [(10, 0x43)]) 0x3A42 (·.ip) = some 0x202 := by decide
/-- T-S3. -/
theorem test_sneImm_not : run (st [(10, 0x42)]) 0x4A42 (·.ip) = some 0x202 := by decide
/-- T-S4. -/
theorem test_sneImm : run (st [(10, 0x43)]) 0x4A42 (·.ip) = some 0x204 := by decide
/-- T-S5. -/
theorem test_seReg : run (st [(1, 7), (2, 7)]) 0x5120 (·.ip) = some 0x204 := by decide
/-- T-S6. -/
theorem test_seReg_not : run (st [(1, 7), (2, 8)]) 0x5120 (·.ip) = some 0x202 := by decide
/-- T-S8. -/
theorem test_sneReg_not : run (st [(1, 7), (2, 7)]) 0x9120 (·.ip) = some 0x202 := by decide
/-- T-S9. -/
theorem test_sneReg : run (st [(1, 7), (2, 8)]) 0x9120 (·.ip) = some 0x204 := by decide

/-! ### Loads, arithmetic, logic, shifts, random -/

/-- T-A1. -/
theorem test_ldImm : run (st []) 0x6FAB (·.reg 15) = some 0xAB := by decide
/-- T-A2: no flag. -/
theorem test_addImm : run (st [(0, 0xFF)]) 0x7001 (regFlag 0) = some (0x00, 0) := by decide
/-- T-A3: `V[15]` as plain destination. -/
theorem test_addImm_flag_register : run (st [(15, 0xFF)]) 0x7F02 (·.reg 15) = some 0x01 := by decide
/-- T-A4. -/
theorem test_ldReg : run (st [(2, 0x7B)]) 0x8120 (fun t => (t.reg 1, t.reg 2)) = some (0x7B, 0x7B) := by decide
/-- T-A5. -/
theorem test_orReg : run (st [(1, 0xF0), (2, 0x0F), (15, 0x55)]) 0x8121 (regFlag 1) = some (0xFF, 0x55) := by decide
/-- T-A6. -/
theorem test_andReg : run (st [(1, 0xF0), (2, 0x3C), (15, 0x55)]) 0x8122 (regFlag 1) = some (0x30, 0x55) := by decide
/-- T-A7. -/
theorem test_xorReg : run (st [(1, 0xF0), (2, 0x3C), (15, 0x55)]) 0x8123 (regFlag 1) = some (0xCC, 0x55) := by decide
/-- T-A10: 255 is no carry, the old flag is not added. -/
theorem test_addReg : run (st [(0, 0xFE), (1, 0x01), (15, 1)]) 0x8014 (regFlag 0) = some (0xFF, 0) := by decide
/-- T-A13: the flag is written last. -/
theorem test_addReg_flag_wins : run (st [(15, 0xF0), (1, 0x20)]) 0x8F14 (·.reg 15) = some 1 := by decide
/-- T-A15: a borrow gives 1. -/
theorem test_subReg : run (st [(0, 1), (1, 2)]) 0x8015 (regFlag 0) = some (0xFF, 1) := by decide
/-- T-A17: equal operands do not borrow. -/
theorem test_subReg_equal : run (st [(0, 7), (1, 7), (15, 1)]) 0x8015 (regFlag 0) = some (0, 0) := by decide
/-- T-A20: register y is shifted. -/
theorem test_shr : run (st [(0, 0xFF), (1, 0x33)]) 0x8106 (regFlag 1) = some (0x7F, 1) := by decide
/-- T-A24: the flag register as source. -/
theorem test_shr_from_flag : run (st [(15, 0x02)]) 0x80F6 (regFlag 0) = some (0x01, 0) := by decide
/-- T-A26. -/
theorem test_subn : run (st [(0, 3), (1, 10)]) 0x8017 (regFlag 0) = some (7, 0) := by decide
/-- T-A27. -/
theorem test_subn_borrow : run (st [(0, 10), (1, 3)]) 0x8017 (regFlag 0) = some (0xF9, 1) := by decide
/-- T-A29: bit 7 is not rotated in. -/
theorem test_shl : run (st [(2, 0x81)]) 0x812E (regFlag 1) = some (0x02, 1) := by decide
/-- T-A34: the flag wins. -/
theorem test_shl_flag_wins : run (st [(2, 0x41)]) 0x8F2E (·.reg 15) = some 0 := by decide
/-- T-A35, T-A37: the drawn byte under the mask, whatever it is. -/
theorem test_rnd : run (st []) 0xC30F (·.reg 3) = some (Config.rnd 0 &&& 0x0F) := by rfl
/-- T-A36: nothing passes an empty mask. -/
theorem test_rnd_empty_mask : run (st [(3, 9)]) 0xC300 (·.reg 3) = some 0 := by
  have h : run (st [(3, 9)]) 0xC300 (·.reg 3) = some (Config.rnd 0 &&& 0x00#8) := by rfl
  rw [h]; simp

/-! ### Address register and memory -/

/-- T-M2. -/
theorem test_ldI : run (st []) 0xAFFF (·.i) = some 0x0FFF := by decide
/-- T-M4: no 12-bit mask, no flag. -/
theorem test_addI : run (st [(2, 1)] 0x0FFF) 0xF21E (fun t => (t.i, t.reg 15)) = some (0x1000, 0) := by decide
/-- T-M5: modulo 65536. -/
theorem test_addI_wraps : run (st [(2, 1)] 0xFFFF) 0xF21E (fun t => (t.i, t.reg 15)) = some (0, 0) := by decide
/-- T-M6. -/
theorem test_ldF : run (st [(10, 10)]) 0xFA29 (·.i) = some 0x0032 := by decide
/-- T-M7. -/
theorem test_ldF_above : run (st [(10, 16)] 0x0123) 0xFA29 (fun t => (t.i, t.ip, t.status)) =
    some (0x0123, 0x202, .halted (.invalidFontCodePoint 16)) := by decide
/-- S7: the value 205. -/
theorem test_ldB : run (st [(1, 205)] 0x0300) 0xF133 (three 0x300) = some (2, 0, 5) := by decide
/-- T-M11: nothing is written. -/
theorem test_ldB_outside : run (st [(1, 123)] 4094) 0xF133 (fun t => (three 4094 t, t.status)) =
    some ((0, 0, 0), .halted (.memoryOutOfBounds 4096)) := by decide
/-- T-M13. -/
theorem test_storeRegs : run (st [(0, 0x11), (1, 0x22), (2, 0x33), (3, 0x44)] 0x300) 0xF255
    (fun t => (three 0x300 t, Mem.read t.mem 0x303, t.i)) = some ((0x11, 0x22, 0x33), 0, 0x300) := by decide
/-- T-M15: no partial store. -/
theorem test_storeRegs_outside : run (st [(0, 1)] 4081) 0xFF55 (fun t => (Mem.read t.mem 4081, t.status)) =
    some (0, .halted (.memoryOutOfBounds 4096)) := by decide
/-- T-M18. -/
theorem test_loadRegs : run (st [(3, 0x99)] 0x300 [(0x300, 1), (0x301, 2), (0x302, 3), (0x303, 4)]) 0xF265
    (fun t => (t.reg 0, t.reg 1, t.reg 2, t.reg 3, t.i)) = some (1, 2, 3, 0x99, 0x300) := by decide
/-- T-M20: no partial load. -/
theorem test_loadRegs_outside : run (st [(0, 5), (1, 6)] 4095) 0xF165 (fun t => (t.reg 0, t.reg 1, t.status)) =
    some (5, 6, .halted (.memoryOutOfBounds 4096)) := by decide

/-! ### Framebuffer (bit `c` of a row's number is column `c`) -/

/-- T-D17. -/
theorem test_cls : run { st [(15, 1)] with fb := (Vector.replicate 32 0).set 0 0x20 } 0x00E0
    (fun t => (t.fb[0], t.reg 15)) = some (0, 1) := by decide
/-- T-D8: the row's end runs on into the next row. -/
theorem test_drw_crosses_row : run (st [(0, 62)] 0x300 [(0x300, 0xFF)]) 0xD011
    (fun t => (t.fb[0], t.fb[1], t.reg 15)) = some (0xC000000000000000, 0x3F, 0) := by decide
/-- T-D6: the cells before the first one outside stay, the flag is not written. -/
theorem test_drw_outside : run (st [(0, 57), (1, 31)] 0x300 [(0x300, 0xFF)]) 0xD011
    (fun t => (t.fb[31], t.reg 15, t.ip, t.status)) =
      some (0xFE00000000000000, 0, 0x202, .halted (.drawingOutOfBounds 2048)) := by decide

/-! ### Keys -/

/-- T-K1. -/
theorem test_skp : run (st [(3, 0x0A)]) 0xE39E (fun t => (t.ip, t.cycleResult)) =
    some (0x202, .suspend .skipIfPressed 3) := by decide
/-- T-K2. -/
theorem test_skp_held :
    after { st [] with ip := 0x202, status := .pending .skipIfPressed 3 } (.resolveSkip true)
      (fun t => (t.ip, t.status)) = some (0x204, .running) := by decide
/-- T-K4. -/
theorem test_sknp : run (st [(3, 0x0A)]) 0xE3A1 (fun t => (t.ip, t.cycleResult)) =
    some (0x202, .suspend .skipIfNotPressed 3) := by decide
/-- T-K5b. -/
theorem test_sknp_held :
    after { st [] with ip := 0x202, status := .pending .skipIfNotPressed 3 } (.resolveSkip true)
      (fun t => (t.ip, t.status)) = some (0x202, .running) := by decide
/-- T-K6. -/
theorem test_ldVxK : run (st [(5, 0x99)]) 0xF50A (fun t => (t.ip, t.reg 5, t.cycleResult)) =
    some (0x202, 0x99, .suspend .waitForKey 5) := by decide
/-- T-K7, the resolution. -/
theorem test_resolveKey :
    after { st [(5, 0x99)] with ip := 0x202, status := .pending .waitForKey 5 } (.resolveKey 15)
      (fun t => (t.reg 5, t.ip, t.status)) = some (0x0F, 0x202, .running) := by decide

/-! ### Timers -/

/-- T-T1. -/
theorem test_ldVxDt : run { st [(2, 1)] with dt := 0x3A } 0xF207 (fun t => (t.reg 2, t.dt)) = some (0x3A, 0x3A) := by
  decide
/-- T-T2. -/
theorem test_ldDtVx : run (st [(0, 0x3C)]) 0xF015 (fun t => (t.dt, t.st)) = some (0x3C, 0) := by decide
/-- T-T3. -/
theorem test_ldStVx : run (st [(1, 5)]) 0xF118 (fun t => (t.st, t.dt)) = some (5, 0) := by decide
/-- T-T5: independent. -/
theorem test_tick : after { st [] with dt := 255, st := 1 } .tick (fun t => (t.dt, t.st)) = some (254, 0) := by decide
/-- T-T4, T-T6: floored at zero, and enabled when halted. -/
theorem test_tick_halted : after { st [] with dt := 3, status := .halted .returnOutsideSubroutine } .tick
    (fun t => (t.dt, t.st, t.status)) = some (2, 0, .halted .returnOutsideSubroutine) := by decide

/-! ### Reset, load, script -/

/-- R230. -/
theorem test_reset_event : after { st [(3, 9)] 5 with status := .halted .returnOutsideSubroutine, ip := 7 } .reset
    (fun t => (t.reg 3, t.i, t.ip, t.status)) = some (0, 0, 0x200, .running) := by decide
/-- R6, R230: the machine's own parameters come back, here I = 5 and another first glyph byte. -/
theorem test_reset_event_own_parameters :
    after { st [(3, 9)] with init := { Init.default with i := 5, mem := [(0, 0xAA)] } } .reset
      (fun t => (t.i, three 0 t, t.init.i)) = some (5, (0xAA, 0x90, 0x90), 5) := by decide
/-- R33, glyph A's first two bytes; R34, memory above the glyphs. -/
theorem test_reset_memory : (three 50 State.reset, Mem.read State.reset.mem 80) = ((0xF0, 0x90, 0xF0), 0) := by decide
/-- S8's start: a program's bytes lie from 0x200 on. -/
theorem test_load : after State.reset (.load [0x60, 0xFF, 0x12]) (three 0x200) = some (0x60, 0xFF, 0x12) := by decide
/-- R9, D22: `Load` is not enabled after a `Cycle`. -/
theorem test_load_closed : after { st [] with loadOpen := false } (.load [0]) (·.ip) = none := by decide
/-- U12: a second `Load` is not enabled either. -/
theorem test_load_twice :
    (nextOf (event (.load [0x60]) State.reset)).bind (fun t => nextOf (event (.load [0x61]) t)) = none := by decide
/-- R9: the script's events come before the cycle. -/
theorem test_script : (nextOf (step { st [] with dt := 2, script := [.tick, .cycle] })).map
    (fun t => (t.dt, t.ip, t.script)) = some (1, 0x200, [.cycle]) := by decide
/-- T-C5 at reset: with nothing placed the first step is a call to 0 (log 12). -/
theorem test_first_step_of_reset : (nextOf (step State.reset)).map (fun t => (t.ip, t.stack)) =
    some (0, [0x202]) := by decide

/-! ### Witnesses: values that meet every hypothesis of an obligation, for each clause of it -/

/-- The state of T-F4: `ip` at the highest address a fetch can use. -/
def topFetch : State := { st [] with ip := 0xFFE }

/-- A running core about to run the jump of T-C6, with a script of its own. -/
def scripted : State := { State.reset.withFetchWord 16 0x1ABC with script := [.cycle, .tick] }

theorem witness_decodeOfEncode : (Instr.sys 0xFFF#12).wellFormed = true ∧ (Instr.drw 15 15 15#4).wellFormed = true := by
  decide

theorem witness_encodeOfDecode : decode 0x0000#16 = some (.sys 0#12) ∧ decode 0xFF65#16 = some (.loadRegs 15) := by decide

theorem witness_fetchIsBigEndian : topFetch.ip.toNat + 1 < 4096 := by decide

theorem witness_stepRuns_unscripted (s : State) (h : s = State.reset.withFetchWord 16 0x1ABC) :
    (s.script = [] ∧ ([] : List Event) = []) ∧ s.status = .running ∧ s.ip.toNat + 1 < 4096 ∧
      decode (Mem.read s.mem s.ip.toNat ++ Mem.read s.mem (s.ip.toNat + 1)) = some (.jp 0xABC) := by
  subst h; decide

theorem witness_stepRuns_scripted :
    scripted.script = .cycle :: [.tick] ∧ scripted.status = .running ∧ scripted.ip.toNat + 1 < 4096 ∧
      decode (Mem.read scripted.mem scripted.ip.toNat ++ Mem.read scripted.mem (scripted.ip.toNat + 1)) =
        some (.jp 0xABC) := by
  decide

theorem witness_fetchOutsideMemory_last : ({ st [] with ip := 4095 }).status = .running ∧
    4095 ≤ ({ st [] with ip := 4095 }).ip.toNat := by decide

theorem witness_illegalWord : (State.reset.withFetchWord 16 0x5121).status = .running ∧
    (State.reset.withFetchWord 16 0x5121).fetch = .ok 0x5121 ∧ decode 0x5121#16 = none := by
  refine ⟨by decide, by rfl, by decide⟩

theorem witness_storeThenFetch : 1 ≤ (1 : Reg).val ∧ (st [(0, 0x60), (1, 0x42)] 0x200).i = (st [(0, 0x60), (1, 0x42)] 0x200).ip ∧
    (st [(0, 0x60), (1, 0x42)] 0x200).i.toNat + (1 : Reg).val < 4096 := by decide

theorem witness_storeThenFetch_top : 1 ≤ (15 : Reg).val ∧ ({ st [] 4080 with ip := 4080 }).i = ({ st [] 4080 with ip := 4080 }).ip ∧
    ({ st [] 4080 with ip := 4080 }).i.toNat + (15 : Reg).val < 4096 := by decide

theorem witness_endedRun : (State.reset.withFetchWord 16 0x1200).Ended ∧ (State.reset.withFetchWord 16 0x1200).script = [] := by
  refine ⟨⟨by decide, by decide, by rfl⟩, by decide⟩

theorem witness_returnPops : ({ st [] with stack := [0x300, 0x204] }).stack = 0x300 :: [0x204] := by decide

theorem witness_returnFromEmpty : (st []).stack = [] := by decide

theorem witness_returnUndoesCall :
    exec (.call 0x210) { st [] with ip := 0x202 } = .next { st [] with ip := 0x210, stack := [0x202] } ∧
      ({ st [(4, 4)] with ip := 0x214, stack := [0x202] }).stack = ({ st [] with ip := 0x210, stack := [0x202] }).stack := by
  refine ⟨by rfl, by decide⟩

theorem witness_glyphAddress : ((st [(10, 15)]).reg 10).toNat ≤ 15 := by decide

theorem witness_glyphAddressAbove : 15 < ((st [(10, 16)]).reg 10).toNat := by decide

theorem witness_decimalDigits : (st [(1, 123)] 4093).effAddr 2 < 4096 := by decide

theorem witness_registersAreStored : (st [(0, 1), (15, 0xEE)] 4080).effAddr (15 : Reg).val < 4096 := by decide

theorem witness_registersAreLoaded : (st [] 4095).effAddr (0 : Reg).val < 4096 := by decide

theorem witness_blockOutside_digits : 4096 ≤ (st [] 4094).effAddr 2 := by decide

theorem witness_blockOutside_registers : 4096 ≤ (st [] 4081).effAddr (15 : Reg).val := by decide

theorem witness_blockOutside_first : 4096 ≤ (st [] 4096).effAddr (0 : Reg).val := by decide

theorem witness_loadUndoesStore (s t u : State) (hs : s = st [(0, 1), (1, 2)] 4094)
    (ht : t = { s with mem := [(4094, 1), (4095, 2)] }) (hu : u = t.setReg 0 9) :
    s.effAddr (1 : Reg).val < 4096 ∧ exec (.storeRegs 1) s = .next t ∧ OnlyRegs t u := by
  subst hs ht hu
  refine ⟨by decide, by rfl, by rfl, by rfl, by rfl, by rfl, ⟨by rfl, by rfl⟩, fun _ => rfl, fun _ => rfl, by rfl, by rfl, by rfl, by rfl⟩

/-- The state of T-D5: the sprite row covers the last eight cells. -/
def lastCells : State := st [(0, 56), (1, 31)] 0x300 [(0x300, 0xFF)]

/-- The state of T-D4: the sprite row covers a cell that is on. -/
def hitCell : State := { st [] 0x300 [(0x300, 0xC0)] with fb := Frame.toggle (Vector.replicate 32 0) 1 }

/-- The state of T-D6: the eighth pixel lies at offset 2048. -/
def pastScreen : State := st [(0, 57), (1, 31)] 0x300 [(0x300, 0xFF)]

/-- The state of T-D15: the second row's byte lies at 4096. -/
def pastMemory : State := st [] 4095 [(4095, 0x80)]

theorem drawable_of_row {s : State} {x y : Reg} (c : Nat)
    (h : ∀ c' : Fin 8, c'.val < c → s.effAddr 0 < 4096 ∧ (s.spriteBit 0 c' = true → s.spriteOffset x y 0 c' < 2048)) :
    s.DrawableBefore x y 0 c := by
  rintro r' c' (hr | ⟨rfl, hlt⟩) hc'
  · omega
  · exact h ⟨c', hc'⟩ hlt

theorem drawable_of_first_row {s : State} {x y : Reg}
    (h : ∀ c' : Fin 8, s.effAddr 0 < 4096 ∧ (s.spriteBit 0 c' = true → s.spriteOffset x y 0 c' < 2048)) :
    s.DrawableBefore x y 1 0 := by
  rintro r' c' (hr | ⟨rfl, hlt⟩) hc'
  · obtain rfl : r' = 0 := by omega
    exact h ⟨c', hc'⟩
  · omega

theorem witness_drawToggles_last_cells : lastCells.DrawableBefore 0 1 (1 : Nibble).toNat 0 :=
  drawable_of_first_row (by decide)

theorem witness_drawToggles_hit : hitCell.DrawableBefore 0 1 (1 : Nibble).toNat 0 ∧ hitCell.cell 1 = true ∧
    hitCell.CoveredBefore 0 1 (1 : Nibble).toNat 0 1 :=
  ⟨drawable_of_first_row (by decide), by decide, 0, 1, .inl (by decide), by decide, by decide, by decide⟩

theorem witness_drawOutsideScreen : 0 < (1 : Nibble).toNat ∧ 7 < 8 ∧ pastScreen.effAddr 0 < 4096 ∧
    pastScreen.DrawableBefore 0 1 0 7 ∧ pastScreen.spriteBit 0 7 = true ∧ 2048 ≤ pastScreen.spriteOffset 0 1 0 7 :=
  ⟨by decide, by decide, by decide, drawable_of_row 7 (by decide), by decide, by decide⟩

theorem witness_drawOutsideMemory : 1 < (2 : Nibble).toNat ∧ 4096 ≤ pastMemory.effAddr 1 ∧
    pastMemory.DrawableBefore 0 1 1 0 :=
  ⟨by decide, by decide, drawable_of_first_row (by decide)⟩

theorem witness_drawTwice (t : State)
    (ht : t = { lastCells with fb := (Vector.replicate 32 0).set 31 0xFF00000000000000 }) :
    (0 : Reg) ≠ 15 ∧ (1 : Reg) ≠ 15 ∧ lastCells.Safe ∧ exec (.drw 0 1 1) lastCells = .next t ∧ t.Safe ∧
      lastCells.fb = Vector.replicate 32 0 := by
  subst ht
  exact ⟨by decide, by decide, by simp [State.Safe, lastCells, st, State.reset, State.setReg], by rfl,
    by simp [State.Safe, lastCells, st, State.reset, State.setReg], by rfl⟩

theorem witness_resolveKey : ({ st [] with status := .pending .waitForKey 5 }).status = .pending .waitForKey 5 := by decide

theorem witness_resolveKey_not_enabled : ∀ x, ({ st [] with status := .pending .skipIfPressed 5 }).status ≠
    .pending .waitForKey x := by decide

theorem witness_resolveSkip :
    ({ st [] with status := .pending .skipIfPressed 3 }).status = .pending .skipIfPressed 3 ∧
      ({ st [] with status := .pending .skipIfNotPressed 3 }).status = .pending .skipIfNotPressed 3 := by decide

theorem witness_resolveSkip_not_enabled : ∀ x,
    ({ st [] with status := .pending .waitForKey 3 }).status ≠ .pending .skipIfPressed x ∧
      ({ st [] with status := .pending .waitForKey 3 }).status ≠ .pending .skipIfNotPressed x := by decide

theorem witness_tickCommutes_key : (∃ k, Event.resolveKey 15 = .resolveKey k) ∧
    event (.resolveKey 15) { st [] with status := .pending .waitForKey 5 } = .next (st [(5, 15)]) :=
  ⟨⟨15, rfl⟩, by rfl⟩

theorem witness_tickCommutes_skip : (∃ held, Event.resolveSkip true = .resolveSkip held) ∧
    event (.resolveSkip true) { st [] with status := .pending .skipIfPressed 5 } = .next { st [] with ip := 0x202 } :=
  ⟨⟨true, rfl⟩, by rfl⟩

theorem witness_soundTimer : exec (.ldStVx 1) (st [(1, 5)]) = .next { st [(1, 5)] with st := 5 } ∧
    exec (.ldVxDt 1) (st [(1, 5)]) = .next (st [(1, 5), (1, 0)]) := ⟨by rfl, by rfl⟩

theorem witness_flagChanges_arithmetic : exec (.addReg 0 1) (st [(0, 0xFF), (1, 2)]) =
    .next (st [(0, 1), (1, 2), (15, 1)]) ∧
      (st [(0, 1), (1, 2), (15, 1)]).reg 15 ≠ (st [(0, 0xFF), (1, 2)]).reg 15 := ⟨by rfl, by decide⟩

theorem witness_flagChanges_draw : exec (.drw 0 1 0) (st [(15, 7)]) = .next (st [(15, 0)]) ∧
    (st [(15, 0)]).reg 15 ≠ (st [(15, 7)]).reg 15 := ⟨by rfl, by decide⟩

theorem witness_flagChanges_destination : exec (.ldImm 15 0xAB) (st []) = .next (st [(15, 0xAB)]) ∧
    (st [(15, 0xAB)]).reg 15 ≠ (st []).reg 15 := ⟨by rfl, by decide⟩

theorem witness_memoryChanges : exec (.storeRegs 0) (st [(0, 0x77)] 4095) =
    .next (st [(0, 0x77)] 4095 [(4095, 0x77)]) ∧
      Mem.read (st [(0, 0x77)] 4095 [(4095, 0x77)]).mem 4095 ≠ Mem.read (st [(0, 0x77)] 4095).mem 4095 :=
  ⟨by rfl, by decide⟩

theorem witness_memoryChanges_digits : exec (.ldB 1) (st [(1, 123)] 4093) =
    .next (st [(1, 123)] 4093 [(4093, 1), (4094, 2), (4095, 3)]) ∧
      Mem.read (st [(1, 123)] 4093 [(4093, 1), (4094, 2), (4095, 3)]).mem 4095 ≠ Mem.read (st [(1, 123)] 4093).mem 4095 :=
  ⟨by rfl, by decide⟩

theorem witness_screenChanges (t : State) (ht : t = { hitCell with fb := Vector.replicate 32 0 }) :
    exec .cls hitCell = .next t ∧ t.cell 1 ≠ hitCell.cell 1 := by
  subst ht; exact ⟨by rfl, by decide⟩

theorem witness_screenChanges_draw (t : State)
    (ht : t = { lastCells with fb := (Vector.replicate 32 0).set 31 0xFF00000000000000 }) :
    exec (.drw 0 1 1) lastCells = .next t ∧ t.cell 2047 ≠ lastCells.cell 2047 := by
  subst ht; exact ⟨by rfl, by decide⟩

theorem witness_specialChanges_stack : exec (.sys 0) (st []) = .next { st [] with ip := 0, stack := [0x200] } ∧
    [0x200#16] ≠ (st []).stack := ⟨by rfl, by decide⟩

theorem witness_specialChanges_address : exec (.addI 2) (st [(2, 1)] 0xFFFF) = .next (st [(2, 1)] 0) ∧
    (st [(2, 1)] 0).i ≠ (st [(2, 1)] 0xFFFF).i := ⟨by rfl, by decide⟩

theorem witness_specialChanges_timers :
    (exec (.ldDtVx 0) (st [(0, 60)]) = .next { st [(0, 60)] with dt := 60 } ∧ (60 : Byte) ≠ (st [(0, 60)]).dt) ∧
      exec (.ldStVx 0) (st [(0, 60)]) = .next { st [(0, 60)] with st := 60 } ∧ (60 : Byte) ≠ (st [(0, 60)]).st :=
  ⟨⟨by rfl, by decide⟩, by rfl, by decide⟩

theorem witness_onlyKeysSuspend : (st []).status = .running ∧
    exec (.skp 3) (st []) = .next { st [] with status := .pending .skipIfPressed 3 } ∧
    exec (.sknp 3) (st []) = .next { st [] with status := .pending .skipIfNotPressed 3 } ∧
    exec (.ldVxK 3) (st []) = .next { st [] with status := .pending .waitForKey 3 } := ⟨by decide, by rfl, by rfl, by rfl⟩

theorem witness_invalidRegister :
    step { st [] with status := .halted (.invalidRegister 16), script := [.tick] } =
      .next { st [] with status := .halted (.invalidRegister 16) } := by rfl

theorem witness_load : State.reset.status = .running ∧ State.reset.loadOpen = true := by decide

/-- S8's first instance: an image of 3590 bytes is longer than what fits, and its last byte that fits is byte 3583. -/
theorem witness_load_boundary : 3583 < (List.replicate 3590 0xAA#8).length ∧ 3583 < 3584 := by
  rw [List.length_replicate]; decide

theorem witness_load_not_enabled : ({ st [] with loadOpen := false }).loadOpen = false ∧
    ({ st [] with status := .pending .waitForKey 3 }).status ≠ .running := by decide

theorem witness_reset (s : State) (hs : s = { st [(3, 9)] with
      init := Init.default.withMemory (Vector.replicate 80 0xFF) (Vector.replicate 4016 1) }) :
    s.init = Init.default.withMemory (Vector.replicate 80 0xFF) (Vector.replicate 4016 1) := by subst hs; rfl

theorem witness_reset_step : step { st [(3, 9)] with script := [.reset] } = .next (st []) := by rfl

/-- The wait of T-K6, with `Tick` and read-out meanwhile and with an empty script. -/
theorem witness_wait : ({ st [] with status := .pending .waitForKey 5 }).status = .pending .waitForKey 5 ∧
    event .tick { st [] with dt := 2, status := .pending .waitForKey 5 } =
      .next { st [] with dt := 1, status := .pending .waitForKey 5 } ∧
    (∀ k, Event.tick ≠ .resolveKey k) ∧ Event.tick ≠ .reset ∧
    ({ st [] with status := .pending .waitForKey 5 }).script = [] := by
  refine ⟨by decide, by rfl, ?_, by decide, by decide⟩
  intro k h; cases h

theorem witness_haltIsFinal : ({ st [] with status := .halted .returnOutsideSubroutine }).status =
      .halted .returnOutsideSubroutine ∧
    event .readOut { st [] with status := .halted .returnOutsideSubroutine } =
      .next { st [] with status := .halted .returnOutsideSubroutine } ∧ Event.readOut ≠ .reset ∧
    ({ st [] with status := .halted .returnOutsideSubroutine }).script = [] := ⟨by decide, by rfl, by decide, by decide⟩

theorem inv_of_running {s : State} (hm : Mem.wf s.mem) (hp : Mem.wf s.init.mem) (hi : s.ip.toNat ≤ 4350) (hr : s.status = .running)
    (hs : ∀ a ∈ s.stack, 2 ≤ a.toNat ∧ a.toNat ≤ 4096) : s.Inv :=
  ⟨hm, hp, hi, fun k x h => by simp [hr] at h, hs⟩

theorem witness_stepKeepsInvariant :
    ({ st [] with ip := 0xFFE, stack := [4096] }).Inv ∧
      step { st [] with ip := 0xFFE, stack := [4096] } =
        .next { st [] with ip := 0, stack := [0x1000, 4096], loadOpen := false } :=
  ⟨inv_of_running (by decide) (by decide) (by decide) (by decide) (List.forall_mem_singleton.2 (by decide)), by rfl⟩

end Sys2Proof.Tests
end

section
namespace Sys2Proof.Machine

/-- Settles O5: inside memory the fetch joins the two bytes at `ip`, and the joined word's number has the byte at the
lower address as its high byte (R51). -/
theorem fetchIsBigEndian : Obligations.FetchIsBigEndian := fun _ hip =>
  ⟨_, State.fetch_of_lt hip, toNat_wordOfBytes _ _⟩

end Sys2Proof.Machine
end

section
namespace Sys2Proof.Machine

theorem exec_jp (nnn : Addr) (s : State) : exec (.jp nnn) s = .next (s.jump (addrWord nnn)) := rfl

theorem exec_jpV0 (nnn : Addr) (s : State) : exec (.jpV0 nnn) s = .next (s.jump (s.offsetTarget nnn)) := rfl

@[simp] theorem State.cell_jump (s : State) (a : Word) (off : Nat) : (s.jump a).cell off = s.cell off := rfl

/-- The frame of every jump, whatever its target. -/
theorem State.jump_onlyControl (s : State) (a : Word) : OnlyControl s (s.jump a) := by
  simp [OnlyControl, KeepsRegs, KeepsTimers, KeepsMemory, KeepsScreen, KeepsHost]

/-- Settles O12: 1NNN is a jump to the zero-extended `nnn` (R102). -/
theorem jumpSetsPointer : Obligations.JumpSetsPointer := fun nnn s =>
  ⟨_, exec_jp nnn s, addrWord_toNat nnn, s.jump_stack _, s.jump_onlyControl _⟩

/-- Settles O13: BNNN is a jump to `V[0] + nnn`, whose sum fits in 16 bits (R104). -/
theorem offsetJumpDoesNotWrap : Obligations.OffsetJumpDoesNotWrap := fun nnn s =>
  ⟨_, exec_jpV0 nnn s, s.offsetTarget_toNat nnn, s.jump_stack _, s.jump_onlyControl _⟩

end Sys2Proof.Machine
end

section
namespace Sys2Proof.Machine

theorem exec_ldImm (x : Reg) (nn : Byte) (s : State) : exec (.ldImm x nn) s = .next (s.setReg x nn) := rfl

theorem exec_addImm (x : Reg) (nn : Byte) (s : State) : exec (.addImm x nn) s = .next (s.setReg x (s.reg x + nn)) := rfl

theorem exec_ldReg (x y : Reg) (s : State) : exec (.ldReg x y) s = .next (s.setReg x (s.reg y)) := rfl

@[simp] theorem State.cell_setReg (s : State) (x : Reg) (b : Byte) (off : Nat) :
    (s.setReg x b).cell off = s.cell off := rfl

/-- The frame of every register write, whatever its value; the other registers are `State.reg_setReg_ne`. -/
theorem State.setReg_onlyRegs (s : State) (x : Reg) (b : Byte) : OnlyRegs s (s.setReg x b) := by
  simp [OnlyRegs, KeepsTimers, KeepsMemory, KeepsScreen, KeepsHost]

/-- Settles O18: 6XNN is one register write, of the immediate (R120). -/
theorem loadImmediateWritesRegister : Obligations.LoadImmediateWritesRegister := fun x nn s =>
  ⟨_, exec_ldImm x nn s, s.reg_setReg_same x nn, fun _ => s.reg_setReg_ne _, s.setReg_onlyRegs x _⟩

/-- Settles O19: 7XNN is one register write, of the sum of two bytes, and a byte's sum wraps at 256; no second write
sets a flag (R121). -/
theorem addImmediateWrapsWithoutFlag : Obligations.AddImmediateWrapsWithoutFlag := fun x nn s => by
  have hsum : ((s.setReg x (s.reg x + nn)).reg x).toNat = ((s.reg x).toNat + nn.toNat) % 256 := by
    rw [State.reg_setReg_same]
    exact BitVec.toNat_add _ _
  exact ⟨_, exec_addImm x nn s, hsum, fun _ => s.reg_setReg_ne _, s.setReg_onlyRegs x _⟩

/-- Settles O20: 8XY0 is one register write, of the value `V[y]` had before it (R122). -/
theorem moveCopiesRegister : Obligations.MoveCopiesRegister := fun x y s =>
  ⟨_, exec_ldReg x y s, s.reg_setReg_same x _, fun _ => s.reg_setReg_ne _, s.setReg_onlyRegs x _⟩

end Sys2Proof.Machine
end

section
namespace Sys2Proof.Machine

theorem exec_ldI (nnn : Addr) (s : State) : exec (.ldI nnn) s = .next { s with i := addrWord nnn } := rfl

/-- The frame of every write to the address register, whatever its value: no other observation reads `I`. -/
theorem State.update_i_onlyAddress (s : State) (a : Word) : OnlyAddress s { s with i := a } :=
  ⟨rfl, rfl, rfl, fun _ => rfl, ⟨rfl, rfl⟩, fun _ => rfl, fun _ => rfl, ⟨rfl, rfl, rfl, rfl⟩⟩

/-- Settles O26: ANNN is one write to `I`, of the zero-extended `nnn` (R140). -/
theorem loadAddressRegister : Obligations.LoadAddressRegister := fun nnn s =>
  ⟨_, exec_ldI nnn s, addrWord_toNat nnn, s.update_i_onlyAddress _⟩

end Sys2Proof.Machine
end

section
namespace Sys2Proof.Machine

theorem exec_cls (s : State) : exec .cls s = .next { s with fb := Frame.clear } := rfl

@[simp] theorem State.cell_update_fb (s : State) (fb : Frame) (off : Nat) :
    ({ s with fb := fb } : State).cell off = Frame.cell fb off := rfl

/-- The frame of every write to the framebuffer, whatever its cells: no other observation reads them. -/
theorem State.update_fb_onlyScreen (s : State) (fb : Frame) : OnlyScreen s { s with fb := fb } :=
  ⟨rfl, rfl, rfl, rfl, fun _ => rfl, ⟨rfl, rfl⟩, fun _ => rfl, ⟨rfl, rfl, rfl, rfl⟩⟩

/-- Settles O34: 00E0 is one write to the framebuffer, of the all-zero frame, and no offset, inside the framebuffer or
past it, names a cell of that frame that is on (R150). -/
theorem clearTurnsEveryCellOff : Obligations.ClearTurnsEveryCellOff := fun s => by
  have hoff : ∀ off, ({ s with fb := Frame.clear } : State).cell off = false := fun off => by
    rw [State.cell_update_fb, Frame.cell_clear]
  exact ⟨_, exec_cls s, hoff, s.update_fb_onlyScreen _⟩

end Sys2Proof.Machine
end

section
namespace Sys2Proof.Machine

theorem exec_ldVxDt (x : Reg) (s : State) : exec (.ldVxDt x) s = .next (s.setReg x s.dt) := rfl

theorem exec_ldDtVx (x : Reg) (s : State) : exec (.ldDtVx x) s = .next { s with dt := s.reg x } := rfl

/-- The frame of every write to the timers, whatever their values: no other observation reads them. A write to one timer
is the case where the other is written with its own value. -/
theorem State.update_timers_onlyTimers (s : State) (dt st : Byte) : OnlyTimers s { s with dt := dt, st := st } :=
  ⟨rfl, rfl, rfl, rfl, fun _ => rfl, fun _ => rfl, fun _ => rfl, ⟨rfl, rfl, rfl, rfl⟩⟩

/-- Settles O44: FX07 is one register write, of the delay timer, and a register write keeps both timers (R170). -/
theorem delayTimerIsRead : Obligations.DelayTimerIsRead := fun x s =>
  ⟨_, exec_ldVxDt x s, s.reg_setReg_same x _, fun _ => s.reg_setReg_ne _, s.setReg_onlyRegs x _⟩

/-- Settles O45: FX15 is one write to the delay timer, of `V[x]`, and the sound timer keeps its value (R171). -/
theorem delayTimerIsSet : Obligations.DelayTimerIsSet := fun x s =>
  ⟨_, exec_ldDtVx x s, rfl, rfl, s.update_timers_onlyTimers (s.reg x) s.st⟩

end Sys2Proof.Machine
end

section
namespace Sys2Proof.Machine

@[simp] theorem resetEvent_ip (s : State) : (resetEvent s).ip = 0x0200 := rfl
@[simp] theorem resetEvent_status (s : State) : (resetEvent s).status = .running := rfl
@[simp] theorem resetEvent_loadOpen (s : State) : (resetEvent s).loadOpen = true := rfl
@[simp] theorem loadEvent_ip (bytes : List Byte) (s : State) : (loadEvent bytes s).ip = s.ip := rfl

theorem event_reset (s : State) : event .reset s = .next (resetEvent s) := rfl

/-- `Load` is enabled on a running core before its first cycle (R9, D22). -/
theorem event_load_of_open {s : State} (bytes : List Byte) (hr : s.status = .running) (ho : s.loadOpen = true) :
    event (.load bytes) s = .next (loadEvent bytes s) :=
  if_pos ⟨hr, ho⟩

/-- With `ip` at the entry point the fetch succeeds, whatever memory holds (R51, R231). -/
theorem State.fetch_of_ip_eq_entry {s : State} (hip : s.ip = 0x0200) :
    s.fetch = .ok (Mem.read s.mem 0x200 ++ Mem.read s.mem 0x201) := by
  have hlt : s.ip.toNat + 1 < Config.memSize := by rw [hip]; decide
  rw [State.fetch_of_lt hlt, hip]
  rfl

/-- Settles O56: `Reset` puts `ip` at the entry point and leaves `Load` enabled, and `Load` keeps `ip`, so the fetch after
either one is the fetch at the entry point (R231). -/
theorem firstFetchIsAtLoadAddress : Obligations.FirstFetchIsAtLoadAddress := fun s bytes => by
  have hreset : (resetEvent s).ip = 0x0200 := resetEvent_ip s
  have hload : (loadEvent bytes (resetEvent s)).ip = 0x0200 := (loadEvent_ip bytes _).trans hreset
  exact ⟨_, _, event_reset s, event_load_of_open bytes (resetEvent_status s) (resetEvent_loadOpen s),
    ⟨congrArg BitVec.toNat hreset, State.fetch_of_ip_eq_entry hreset⟩,
    congrArg BitVec.toNat hload, State.fetch_of_ip_eq_entry hload⟩

end Sys2Proof.Machine
end

section
namespace Sys2Proof

/-! ### A word from its fields (spec/30_encoding.md R71, R72) -/

theorem encodeA_fields (w : Word) : encodeA (opNibble w) (fieldNNN w) = w := by
  apply BitVec.eq_of_toNat_eq
  rw [toNat_encodeA, toNat_opNibble, toNat_fieldNNN]
  omega

theorem encodeXI_fields (w : Word) : encodeXI (opNibble w) (fieldX w) (fieldNN w) = w := by
  apply BitVec.eq_of_toNat_eq
  rw [toNat_encodeXI, toNat_opNibble, val_fieldX, toNat_fieldNN]
  omega

theorem encodeXY_fields (w : Word) : encodeXY (opNibble w) (fieldX w) (fieldY w) (fieldN w) = w := by
  apply BitVec.eq_of_toNat_eq
  rw [toNat_encodeXY, toNat_opNibble, val_fieldX, val_fieldY, toNat_fieldN]
  omega

/-! ### Class 0 (R73) -/

/-- The words of 0NNN are told apart by their address. -/
theorem encodeA_injective (op : Nibble) : Function.Injective (encodeA op) := fun nnn mmm h => by
  simpa using congrArg fieldNNN h

/-- Beside the two addresses that 00E0 and 00EE take, class 0 decodes to 0NNN. -/
theorem decodeClass0_encodeA {nnn : Addr} (hcls : nnn ≠ 0x0E0#12) (hret : nnn ≠ 0x0EE#12) :
    decodeClass0 (encodeA 0#4 nnn) = .sys nnn := by
  have hcls' : encodeA 0#4 nnn ≠ 0x00E0#16 := (encodeA_injective 0#4).ne hcls
  have hret' : encodeA 0#4 nnn ≠ 0x00EE#16 := (encodeA_injective 0#4).ne hret
  simp only [decodeClass0, if_neg hcls', if_neg hret', fieldNNN_encodeA]

/-- Settles O1: an encoded word has the opcode nibble and the fields its instruction's form wrote (Laws/Decode), so the
decoder selects the same row; in class 0 well-formedness keeps 0NNN off the two fixed words. -/
theorem decodeOfEncode : Obligations.DecodeOfEncode := by
  intro i hi
  cases i
  case cls => rfl
  case ret => rfl
  case sys nnn =>
    obtain ⟨hcls, hret⟩ : nnn ≠ 0x0E0#12 ∧ nnn ≠ 0x0EE#12 := by simpa [Instr.wellFormed] using hi
    simpa [encode, decode] using decodeClass0_encodeA hcls hret
  all_goals simp [encode, decode, decodeClass8, decodeClassE, decodeClassF]

/-! ### What each class answers (R74) -/

/-- A field that reads as a number is that number's bits. -/
theorem eq_ofNat_of_toNat_eq {n k : Nat} {b : BitVec n} (h : b.toNat = k) : b = BitVec.ofNat n k := by
  rw [← h, BitVec.ofNat_toNat, BitVec.setWidth_eq]

/-- `i` is well-formed and its word is `w`. -/
def Encodes (i : Instr) (w : Word) : Prop := encode i = w ∧ i.wellFormed = true

theorem decodeClass0_encodes {w : Word} (h : opNibble w = 0#4) : Encodes (decodeClass0 w) w := by
  have hw : encodeA 0#4 (fieldNNN w) = w := h ▸ encodeA_fields w
  unfold decodeClass0
  split
  · next hcls => exact ⟨hcls.symm, rfl⟩
  split
  · next hret => exact ⟨hret.symm, rfl⟩
  · next hcls hret =>
    have hcls' : fieldNNN w ≠ 0x0E0#12 := fun hn => hcls (by rw [← hw, hn]; rfl)
    have hret' : fieldNNN w ≠ 0x0EE#12 := fun hn => hret (by rw [← hw, hn]; rfl)
    exact ⟨hw, by simp [Instr.wellFormed, hcls', hret']⟩

theorem decodeClass8_encodes {x y : Reg} {d : Nibble} {i : Instr} (h : decodeClass8 x y d = some i) :
    Encodes i (encodeXY 8#4 x y d) := by
  unfold decodeClass8 at h
  split at h <;> cases h
  all_goals next hd => exact ⟨by rw [eq_ofNat_of_toNat_eq hd]; rfl, rfl⟩

theorem decodeClassE_encodes {x : Reg} {nn : Byte} {i : Instr} (h : decodeClassE x nn = some i) :
    Encodes i (encodeXI 14#4 x nn) := by
  unfold decodeClassE at h
  split at h <;> cases h
  all_goals next hnn => exact ⟨by rw [eq_ofNat_of_toNat_eq hnn]; rfl, rfl⟩

theorem decodeClassF_encodes {x : Reg} {nn : Byte} {i : Instr} (h : decodeClassF x nn = some i) :
    Encodes i (encodeXI 15#4 x nn) := by
  unfold decodeClassF at h
  split at h <;> cases h
  all_goals next hnn => exact ⟨by rw [eq_ofNat_of_toNat_eq hnn]; rfl, rfl⟩

theorem encodeA_of_toNat_opNibble {w : Word} {k : Nat} (h : (opNibble w).toNat = k) :
    encodeA (BitVec.ofNat 4 k) (fieldNNN w) = w :=
  eq_ofNat_of_toNat_eq h ▸ encodeA_fields w

theorem encodeXI_of_toNat_opNibble {w : Word} {k : Nat} (h : (opNibble w).toNat = k) :
    encodeXI (BitVec.ofNat 4 k) (fieldX w) (fieldNN w) = w :=
  eq_ofNat_of_toNat_eq h ▸ encodeXI_fields w

theorem encodeXY_of_toNat_opNibble {w : Word} {k : Nat} (h : (opNibble w).toNat = k) :
    encodeXY (BitVec.ofNat 4 k) (fieldX w) (fieldY w) (fieldN w) = w :=
  eq_ofNat_of_toNat_eq h ▸ encodeXY_fields w

/-- Settles O2: a word is its fields put together in the form of its class, and each class answers an instruction whose
word is made of those fields. -/
theorem encodeOfDecode : Obligations.EncodeOfDecode := by
  intro w i h
  unfold decode at h
  split at h
  case h_1 _ hop => cases h; exact decodeClass0_encodes (eq_ofNat_of_toNat_eq hop)
  -- form A: 1NNN, 2NNN, ANNN, BNNN
  case h_2 _ hop | h_3 _ hop | h_11 _ hop | h_12 _ hop => cases h; exact ⟨encodeA_of_toNat_opNibble hop, rfl⟩
  -- form XI: 3XNN, 4XNN, 6XNN, 7XNN, CXNN
  case h_4 _ hop | h_5 _ hop | h_7 _ hop | h_8 _ hop | h_13 _ hop =>
    cases h; exact ⟨encodeXI_of_toNat_opNibble hop, rfl⟩
  -- form XYN: DXYN
  case h_14 _ hop => cases h; exact ⟨encodeXY_of_toNat_opNibble hop, rfl⟩
  -- form XY with the one sub-opcode 0: 5XY0, 9XY0
  case h_6 _ hop | h_10 _ hop =>
    split at h <;> cases h
    next hn =>
      have hw := encodeXY_of_toNat_opNibble hop
      rw [hn] at hw
      exact ⟨hw, rfl⟩
  case h_9 _ hop => exact encodeXY_of_toNat_opNibble hop ▸ decodeClass8_encodes h
  case h_15 _ hop => exact encodeXI_of_toNat_opNibble hop ▸ decodeClassE_encodes h
  case h_16 =>
    have hop : (opNibble w).toNat = 15 := by have := (opNibble w).isLt; simp only [imp_false] at *; omega
    exact encodeXI_of_toNat_opNibble hop ▸ decodeClassF_encodes h

/-! ### The words that select no row (R75) -/

theorem decodeClass8_eq_none {x y : Reg} {d : Nibble} :
    decodeClass8 x y d = none ↔ 8 ≤ d.toNat ∧ d.toNat ≠ 14 := by
  unfold decodeClass8
  split <;> simp_all
  omega

theorem decodeClassE_eq_none {x : Reg} {nn : Byte} :
    decodeClassE x nn = none ↔ nn.toNat ≠ 0x9E ∧ nn.toNat ≠ 0xA1 := by
  unfold decodeClassE
  split <;> simp_all

theorem decodeClassF_eq_none {x : Reg} {nn : Byte} :
    decodeClassF x nn = none ↔ nn.toNat ∉ [0x07, 0x0A, 0x15, 0x18, 0x1E, 0x29, 0x33, 0x55, 0x65] := by
  unfold decodeClassF
  split <;> simp_all

theorem fieldN_eq_zero {w : Word} : fieldN w = 0x0#4 ↔ w.toNat % 16 = 0 := by
  rw [← toNat_fieldN, ← BitVec.toNat_inj]; rfl

/-- Settles O3: the leading nibble selects the class; within 5, 8, 9, E and F the rest of the table is when the class
answers none, and every other class answers an instruction. -/
theorem illegalWordsExactly : Obligations.IllegalWordsExactly := by
  intro w
  unfold decode
  rw [toNat_opNibble]
  split
  case h_6 _ hop | h_10 _ hop => simp [hop, fieldN_eq_zero]
  case h_9 _ hop => simp [hop, decodeClass8_eq_none, toNat_fieldN]
  case h_15 _ hop => simp [hop, decodeClassE_eq_none, toNat_fieldNN]
  case h_16 =>
    have hop : w.toNat / 4096 = 15 := by have := w.isLt; simp only [imp_false] at *; omega
    simp [hop, decodeClassF_eq_none, toNat_fieldNN]
  all_goals next hop => simp [hop]

/-- Settles O4: the ten words are run through the decoder. -/
theorem wordsOfTheOpcodeMap : Obligations.WordsOfTheOpcodeMap := by
  unfold Obligations.WordsOfTheOpcodeMap
  decide

end Sys2Proof
end

section
namespace Sys2Proof.Machine

/-! ### Frames: one lemma per group of fields, whatever their new values -/

theorem State.update_v_onlyRegs (s : State) (v : Vector Byte 16) : OnlyRegs s { s with v := v } :=
  ⟨rfl, rfl, rfl, rfl, ⟨rfl, rfl⟩, fun _ => rfl, fun _ => rfl, ⟨rfl, rfl, rfl, rfl⟩⟩

theorem State.update_ip_stack_onlyControl (s : State) (a : Word) (l : List Word) :
    OnlyControl s { s with ip := a, stack := l } :=
  ⟨rfl, rfl, fun _ => rfl, ⟨rfl, rfl⟩, fun _ => rfl, fun _ => rfl, ⟨rfl, rfl, rfl, rfl⟩⟩

theorem State.update_status_onlyStatus (s : State) (l : Status) : OnlyStatus s { s with status := l } :=
  ⟨rfl, rfl, rfl, fun _ => rfl, ⟨rfl, rfl⟩, fun _ => rfl, fun _ => rfl, ⟨rfl, rfl, rfl, rfl⟩⟩

theorem State.update_mem_onlyMemory (s : State) (m : Mem) : OnlyMemory s { s with mem := m } :=
  ⟨rfl, rfl, rfl, rfl, fun _ => rfl, ⟨rfl, rfl⟩, fun _ => rfl, ⟨rfl, rfl, rfl, rfl⟩⟩

theorem State.update_draw_onlyDraw (s : State) (v : Vector Byte 16) (fb : Frame) (l : Status) :
    OnlyDraw s { s with v := v, fb := fb, status := l } :=
  ⟨rfl, rfl, rfl, ⟨rfl, rfl⟩, fun _ => rfl, ⟨rfl, rfl, rfl, rfl⟩⟩

end Sys2Proof.Machine
end

section
namespace Sys2Proof.Machine

/-! ### Calls and returns (spec/40_control_flow.md) -/

theorem exec_call (nnn : Addr) (s : State) : exec (.call nnn) s = .next (s.call (addrWord nnn)) := rfl

theorem exec_sys (nnn : Addr) (s : State) : exec (.sys nnn) s = .next (s.call (addrWord nnn)) := rfl

theorem exec_ret_of_cons {s : State} {a : Word} {rest : List Word} (h : s.stack = a :: rest) :
    exec .ret s = .next { s with stack := rest, ip := a } := by
  simp only [exec, execRet, h]

theorem exec_ret_of_nil {s : State} (h : s.stack = []) : exec .ret s = .next (s.raise .returnOutsideSubroutine) := by
  simp only [exec, execRet, h]

/-- Settles O14: both words are the one operation `State.call`, which pushes before it jumps. -/
theorem callAndSysPushAndJump : Obligations.CallAndSysPushAndJump := by
  intro nnn s i hi
  have hexec : exec i s = .next (s.call (addrWord nnn)) := by
    simp only [List.mem_cons, List.not_mem_nil, or_false] at hi
    rcases hi with rfl | rfl
    · exact exec_call nnn s
    · exact exec_sys nnn s
  exact ⟨_, hexec, addrWord_toNat nnn, s.call_stack _, s.update_ip_stack_onlyControl _ _⟩

/-- Settles O15: the stack is a value and the rest, or empty, and the return is one update in either case. -/
theorem returnPopsPointerOrHalts : Obligations.ReturnPopsPointerOrHalts := fun s =>
  ⟨fun a rest h => ⟨_, exec_ret_of_cons h, rfl, rfl, s.update_ip_stack_onlyControl a rest⟩,
    fun h => ⟨_, exec_ret_of_nil h, s.raise_status _, s.update_status_onlyStatus _⟩⟩

/-- Settles O16: the call's stack has the old `ip` on top of the old stack, and the return takes it apart again. -/
theorem returnUndoesCall : Obligations.ReturnUndoesCall := by
  intro nnn s t u hcall hu
  cases (exec_call nnn s).symm.trans hcall
  exact ⟨_, exec_ret_of_cons (hu.trans (s.call_stack _)), rfl, rfl⟩

/-! ### Skips (spec/41_skip.md) -/

theorem exec_seImm (x : Reg) (nn : Byte) (s : State) : exec (.seImm x nn) s = .next (s.skipIf (s.reg x == nn)) := rfl

theorem exec_sneImm (x : Reg) (nn : Byte) (s : State) : exec (.sneImm x nn) s = .next (s.skipIf (s.reg x != nn)) := rfl

theorem exec_seReg (x y : Reg) (s : State) : exec (.seReg x y) s = .next (s.skipIf (s.reg x == s.reg y)) := rfl

theorem exec_sneReg (x y : Reg) (s : State) : exec (.sneReg x y) s = .next (s.skipIf (s.reg x != s.reg y)) := rfl

/-- All that a skip does, with its condition as a proposition (R114). -/
theorem State.skipIf_spec (s : State) {c : Bool} {p : Prop} [Decidable p] (h : c = true ↔ p) :
    (s.skipIf c).ip.toNat = (if p then (s.ip.toNat + 2) % 65536 else s.ip.toNat) ∧
      (s.skipIf c).stack = s.stack ∧ OnlyControl s (s.skipIf c) := by
  cases c with
  | false =>
    rw [if_neg (fun hp => Bool.false_ne_true (h.2 hp))]
    exact ⟨rfl, rfl, s.update_ip_stack_onlyControl s.ip s.stack⟩
  | true =>
    rw [if_pos (h.1 rfl)]
    exact ⟨BitVec.toNat_add s.ip 2, rfl, s.update_ip_stack_onlyControl (s.ip + 2) s.stack⟩

/-- Settles O17: each shape is a skip under its own comparison. -/
theorem skipsAddTwoUnderCondition : Obligations.SkipsAddTwoUnderCondition := fun x y nn s =>
  ⟨⟨_, exec_seImm x nn s, s.skipIf_spec beq_iff_eq⟩, ⟨_, exec_sneImm x nn s, s.skipIf_spec bne_iff_ne⟩,
    ⟨_, exec_seReg x y s, s.skipIf_spec beq_iff_eq⟩, ⟨_, exec_sneReg x y s, s.skipIf_spec bne_iff_ne⟩⟩

end Sys2Proof.Machine
end

section
namespace Sys2Proof.Machine

/-! ### Logic and random (spec/42_load_alu.md) -/

theorem exec_orReg (x y : Reg) (s : State) : exec (.orReg x y) s = .next (s.setReg x (s.reg x ||| s.reg y)) := rfl

theorem exec_andReg (x y : Reg) (s : State) : exec (.andReg x y) s = .next (s.setReg x (s.reg x &&& s.reg y)) := rfl

theorem exec_xorReg (x y : Reg) (s : State) : exec (.xorReg x y) s = .next (s.setReg x (s.reg x ^^^ s.reg y)) := rfl

/-- The draw is counted before the register is written: the order of two writes to different fields is no difference. -/
theorem exec_rnd (x : Reg) (nn : Byte) (s : State) :
    exec (.rnd x nn) s = .next (({ s with draws := s.draws + 1 } : State).setReg x (Config.rnd s.draws &&& nn)) := rfl

/-- All that one register write does, bit by bit. -/
theorem State.setReg_bits_spec (s : State) (x : Reg) {b : Byte} {f : Nat → Bool} (hb : ∀ k, b.getLsbD k = f k) :
    (∀ k, ((s.setReg x b).reg x).getLsbD k = f k) ∧ (∀ r, r ≠ x → (s.setReg x b).reg r = s.reg r) ∧
      OnlyRegs s (s.setReg x b) :=
  ⟨(s.reg_setReg_same x b).symm ▸ hb, fun _ => s.reg_setReg_ne b, s.setReg_onlyRegs x b⟩

/-- Settles O21: each shape is one register write, of the bitwise operation. -/
theorem logicIsBitwiseWithoutFlag : Obligations.LogicIsBitwiseWithoutFlag := fun x y s =>
  ⟨⟨_, exec_orReg x y s, s.setReg_bits_spec x fun _ => BitVec.getLsbD_or⟩,
    ⟨_, exec_andReg x y s, s.setReg_bits_spec x fun _ => BitVec.getLsbD_and⟩,
    ⟨_, exec_xorReg x y s, s.setReg_bits_spec x fun _ => BitVec.getLsbD_xor⟩⟩

/-- Settles O25: the byte written is the drawn one under the mask, and a bit that the mask has off is off in it. -/
theorem randomByteUnderMask : Obligations.RandomByteUnderMask := by
  intro x nn s
  refine ⟨_, exec_rnd x nn s, State.reg_setReg_same _ _ _, fun k hk => ?_, fun r => State.reg_setReg_ne _ _,
    State.setReg_onlyRegs _ _ _⟩
  rw [State.reg_setReg_same, BitVec.getLsbD_and, hk, Bool.and_false]

/-! ### The instructions that write a flag (R27) -/

theorem exec_addReg (x y : Reg) (s : State) :
    exec (.addReg x y) s = .next (s.setResultFlag x (s.reg x + s.reg y) (carryFlag (s.reg x) (s.reg y))) := rfl

theorem exec_subReg (x y : Reg) (s : State) :
    exec (.subReg x y) s = .next (s.setResultFlag x (s.reg x - s.reg y) (borrowFlag (s.reg x) (s.reg y))) := rfl

theorem exec_subn (x y : Reg) (s : State) :
    exec (.subn x y) s = .next (s.setResultFlag x (s.reg y - s.reg x) (borrowFlag (s.reg y) (s.reg x))) := rfl

theorem exec_shr (x y : Reg) (s : State) :
    exec (.shr x y) s = .next (s.setResultFlag x (s.reg y >>> 1) (shiftedOutLow (s.reg y))) := rfl

theorem exec_shl (x y : Reg) (s : State) :
    exec (.shl x y) s = .next (s.setResultFlag x (s.reg y <<< 1) (shiftedOutHigh (s.reg y))) := rfl

/-- All that a flag-writing instruction does, with the result and the flag as numbers. -/
theorem State.setResultFlag_spec (s : State) (x : Reg) {b c : Byte} {m k : Nat} (hb : b.toNat = m) (hc : c.toNat = k) :
    (x ≠ 15 → ((s.setResultFlag x b c).reg x).toNat = m) ∧ ((s.setResultFlag x b c).reg 15).toNat = k ∧
      (∀ r, r ≠ x → r ≠ 15 → (s.setResultFlag x b c).reg r = s.reg r) ∧ OnlyRegs s (s.setResultFlag x b c) := by
  refine ⟨fun hx => ?_, ?_, fun r hr hf => ?_, s.update_v_onlyRegs _⟩
  · rw [State.reg_setResultFlag, if_neg hx, if_pos rfl, hb]
  · rw [State.reg_setResultFlag, if_pos rfl, hc]
  · rw [State.reg_setResultFlag, if_neg hf, if_neg hr]

theorem toNat_byte_sub (a b : Byte) : (a - b).toNat = (a.toNat + 256 - b.toNat) % 256 := by
  have := b.isLt
  rw [BitVec.toNat_sub]
  omega

theorem toNat_byte_shiftRight_one (b : Byte) : (b >>> 1).toNat = b.toNat / 2 := by
  rw [BitVec.toNat_ushiftRight, Nat.shiftRight_eq_div_pow, Nat.pow_one]

theorem toNat_byte_shiftLeft_one (b : Byte) : (b <<< 1).toNat = b.toNat * 2 % 256 := by
  rw [BitVec.toNat_shiftLeft, Nat.shiftLeft_eq]

/-- Settles O22: the result is the byte sum, the flag the carry (R126). -/
theorem addSetsCarry : Obligations.AddSetsCarry := fun x y s =>
  ⟨_, exec_addReg x y s, s.setResultFlag_spec x (BitVec.toNat_add _ _) (carryFlag_toNat _ _)⟩

/-- Settles O23: the result is the byte difference, the flag the borrow, with the minuend in register x for 8XY5 and in
register y for 8XY7 (R127, R129). -/
theorem subtractionsSetBorrow : Obligations.SubtractionsSetBorrow := fun x y s =>
  ⟨⟨_, exec_subReg x y s, s.setResultFlag_spec x (toNat_byte_sub _ _) (borrowFlag_toNat _ _)⟩,
    ⟨_, exec_subn x y s, s.setResultFlag_spec x (toNat_byte_sub _ _) (borrowFlag_toNat _ _)⟩⟩

/-- Settles O24: the result is the shift of register y, the flag the bit it loses (R128, R130). -/
theorem shiftsReadRegisterY : Obligations.ShiftsReadRegisterY := fun x y s =>
  ⟨⟨_, exec_shr x y s, s.setResultFlag_spec x (toNat_byte_shiftRight_one _) (shiftedOutLow_toNat _)⟩,
    ⟨_, exec_shl x y s, s.setResultFlag_spec x (toNat_byte_shiftLeft_one _) (shiftedOutHigh_toNat _)⟩⟩

end Sys2Proof.Machine
end

section
namespace Sys2Proof.Machine

/-! ### The address register (spec/43_address_memory.md FX1E, FX29) -/

theorem exec_addI (x : Reg) (s : State) : exec (.addI x) s = .next { s with i := s.i + (s.reg x).setWidth 16 } := rfl

theorem exec_ldF_of_le {x : Reg} {s : State} (h : (s.reg x).toNat ≤ 15) :
    exec (.ldF x) s = .next { s with i := glyphAddr (s.reg x) } :=
  if_neg (Nat.not_lt.2 h)

theorem exec_ldF_of_lt {x : Reg} {s : State} (h : 15 < (s.reg x).toNat) :
    exec (.ldF x) s = .next (s.raise (.invalidFontCodePoint (s.reg x))) :=
  if_pos h

/-- Settles O27: FX1E is one write to `I`, of a 16-bit sum, and the zero-extended byte keeps its number (R141). -/
theorem addToAddressRegisterWraps : Obligations.AddToAddressRegisterWraps := fun x s => by
  have hsum : (s.i + (s.reg x).setWidth 16).toNat = (s.i.toNat + (s.reg x).toNat) % 65536 := by
    rw [BitVec.toNat_add, BitVec.toNat_setWidth_of_le (by decide)]
  exact ⟨_, exec_addI x s, hsum, s.update_i_onlyAddress _⟩

/-- Settles O28: up to 15 FX29 is one write to `I`, above it one raise (R142, R204). -/
theorem glyphAddressIsFiveTimesDigitOrHalts : Obligations.GlyphAddressIsFiveTimesDigitOrHalts := fun _ s =>
  ⟨fun h => ⟨_, exec_ldF_of_le h, glyphAddr_toNat _, s.update_i_onlyAddress _⟩,
    fun h => ⟨_, exec_ldF_of_lt h, s.raise_status _, s.update_status_onlyStatus _⟩⟩

/-! ### The block instructions (FX33, FX55, FX65) -/

/-- The condition of a block access that leaves memory (R63). -/
def State.outOfMemory (s : State) : Fatal := .memoryOutOfBounds (max s.i.toNat Config.memSize)

theorem exec_ldB_of_lt {x : Reg} {s : State} (h : s.effAddr 2 < Config.memSize) :
    exec (.ldB x) s = .next { s with mem := Mem.writeBytes s.mem (s.effAddr 0) (decimalDigits (s.reg x)) } := by
  simp only [exec, execLdB, State.blockFault_eq_none.2 h]

theorem exec_ldB_of_le {x : Reg} {s : State} (h : Config.memSize ≤ s.effAddr 2) :
    exec (.ldB x) s = .next (s.raise s.outOfMemory) := by
  simp only [exec, execLdB, State.blockFault_eq_some.2 ⟨h, rfl⟩, State.outOfMemory]

theorem exec_storeRegs_of_lt {x : Reg} {s : State} (h : s.effAddr x.val < Config.memSize) :
    exec (.storeRegs x) s = .next { s with mem := Mem.writeBytes s.mem (s.effAddr 0) (s.regBytes x) } := by
  simp only [exec, execStoreRegs, State.blockFault_eq_none.2 h]

theorem exec_storeRegs_of_le {x : Reg} {s : State} (h : Config.memSize ≤ s.effAddr x.val) :
    exec (.storeRegs x) s = .next (s.raise s.outOfMemory) := by
  simp only [exec, execStoreRegs, State.blockFault_eq_some.2 ⟨h, rfl⟩, State.outOfMemory]

theorem exec_loadRegs_of_lt {x : Reg} {s : State} (h : s.effAddr x.val < Config.memSize) :
    exec (.loadRegs x) s = .next { s with v := s.loadedRegs x } := by
  simp only [exec, execLoadRegs, State.blockFault_eq_none.2 h]

theorem exec_loadRegs_of_le {x : Reg} {s : State} (h : Config.memSize ≤ s.effAddr x.val) :
    exec (.loadRegs x) s = .next (s.raise s.outOfMemory) := by
  simp only [exec, execLoadRegs, State.blockFault_eq_some.2 ⟨h, rfl⟩, State.outOfMemory]

/-- FX55 leaves `V[r]` at `I + r`. -/
theorem State.read_storedRegs (s : State) {x r : Reg} (h : r ≤ x) :
    Mem.read (Mem.writeBytes s.mem (s.effAddr 0) (s.regBytes x)) (s.effAddr r.val) = s.reg r := by
  have hlen : r.val < (s.regBytes x).length := by rw [State.regBytes_length]; exact Nat.lt_succ_of_le h
  rw [s.read_blockStore _ _ hlen, s.regBytes_getD h]

/-- Settles O29: FX33 is one block store, of three digits (R143). -/
theorem decimalDigitsAreStored : Obligations.DecimalDigitsAreStored := by
  intro x s hm
  obtain ⟨h0, h1, h2⟩ := decimalDigits_toNat (s.reg x)
  have hread : ∀ k < 3, Mem.read (Mem.writeBytes s.mem (s.effAddr 0) (decimalDigits (s.reg x))) (s.effAddr k) =
      (decimalDigits (s.reg x)).getD k 0 := s.read_blockStore (decimalDigits (s.reg x))
  refine ⟨_, exec_ldB_of_lt hm, ?_, ?_, ?_, fun a ha => s.read_blockStore_ne _ a ?_, s.update_mem_onlyMemory _⟩
  · rw [hread 0 (by decide), h0]
  · rw [hread 1 (by decide), h1]
  · rw [hread 2 (by decide), h2]
  · have hlast : s.effAddr 2 = s.effAddr 0 + 2 := rfl
    rw [decimalDigits_length]
    omega

/-- Settles O30: FX55 is one block store, of `V[0]` to `V[x]` (R144). -/
theorem registersAreStored : Obligations.RegistersAreStored := by
  intro x s hm
  refine ⟨_, exec_storeRegs_of_lt hm, fun r hr => s.read_storedRegs hr, fun a ha => s.read_blockStore_ne _ a ?_,
    s.update_mem_onlyMemory _⟩
  have hlast : s.effAddr x.val = s.effAddr 0 + x.val := rfl
  rw [State.regBytes_length]
  omega

/-- Settles O31: FX65 is one write of the register file, of `State.loadedRegs` (R145). -/
theorem registersAreLoaded : Obligations.RegistersAreLoaded := by
  intro x s hm
  refine ⟨_, exec_loadRegs_of_lt hm, fun r hr => ?_, fun r hr => ?_, s.update_v_onlyRegs _⟩
  · rw [State.reg_loadedRegs, if_pos hr]
  · rw [State.reg_loadedRegs, if_neg (not_le.2 hr)]

/-- Settles O32: outside memory each of the three is one raise (R63). -/
theorem blockAccessOutsideMemoryHalts : Obligations.BlockAccessOutsideMemoryHalts := by
  intro x s
  refine ⟨fun hm => ⟨_, exec_ldB_of_le hm, s.raise_status _, s.update_status_onlyStatus _⟩, fun hm i hi => ?_⟩
  have hexec : exec i s = .next (s.raise s.outOfMemory) := by
    simp only [List.mem_cons, List.not_mem_nil, or_false] at hi
    rcases hi with rfl | rfl
    · exact exec_storeRegs_of_le hm
    · exact exec_loadRegs_of_le hm
  exact ⟨_, hexec, s.raise_status _, s.update_status_onlyStatus _⟩

/-- Settles O33: a change of registers alone keeps `I` and every byte, so the load reads what the store left. -/
theorem loadUndoesStore : Obligations.LoadUndoesStore := by
  intro x s t u hm hst hu
  cases (exec_storeRegs_of_lt hm).symm.trans hst
  obtain ⟨hi, -, -, -, -, hmem, -⟩ := hu
  have haddr : ∀ k, u.effAddr k = s.effAddr k := fun k => congrArg (fun i : Word => i.toNat + k) hi
  refine ⟨_, exec_loadRegs_of_lt (by rwa [haddr]), fun k hk => ?_⟩
  rw [State.reg_loadedRegs, if_pos hk, haddr, hmem, s.read_storedRegs hk]

/-- Settles O10: with `I` at `ip` the bytes the fetch reads are the first two that FX55 stored, `V[0]` and `V[1]` (R62). -/
theorem storeThenFetchSeesIt : Obligations.StoreThenFetchSeesIt := by
  intro s x hx hi hm
  have haddr : ∀ k, s.ip.toNat + k = s.effAddr k := fun k => by rw [State.effAddr, hi]
  have hip : s.ip.toNat + 1 < Config.memSize := by rw [← hi]; simp only [Config.memSize]; omega
  refine ⟨_, exec_storeRegs_of_lt hm, ?_⟩
  have h0 := s.read_storedRegs (x := x) (r := 0) (Fin.zero_le x)
  have h1 := s.read_storedRegs (x := x) (r := 1) (Fin.le_def.2 hx)
  rw [State.fetch_of_lt (by exact hip)]
  exact congrArg₂ (fun a b => Except.ok (wordOfBytes a b)) ((congrArg _ (haddr 0)).trans h0)
    ((congrArg _ (haddr 1)).trans h1)

end Sys2Proof.Machine
end

section
namespace Sys2Proof.Machine

/-! ### Suspending and the sound timer (spec/45_keys.md, spec/46_timers.md) -/

theorem exec_skp (x : Reg) (s : State) : exec (.skp x) s = .next (s.suspend .skipIfPressed x) := rfl

theorem exec_sknp (x : Reg) (s : State) : exec (.sknp x) s = .next (s.suspend .skipIfNotPressed x) := rfl

theorem exec_ldVxK (x : Reg) (s : State) : exec (.ldVxK x) s = .next (s.suspend .waitForKey x) := rfl

theorem exec_ldStVx (x : Reg) (s : State) : exec (.ldStVx x) s = .next { s with st := s.reg x } := rfl

/-- Settles O39: each of the three is one write to the latch (R160). -/
theorem keyInstructionsSuspend : Obligations.KeyInstructionsSuspend := fun x s =>
  ⟨⟨_, exec_skp x s, rfl, s.update_status_onlyStatus _⟩, ⟨_, exec_sknp x s, rfl, s.update_status_onlyStatus _⟩,
    ⟨_, exec_ldVxK x s, rfl, s.update_status_onlyStatus _⟩⟩

/-- Settles O46: FX18 is one write to the sound timer, of `V[x]`, and the delay timer keeps its value (R172). -/
theorem soundTimerIsSet : Obligations.SoundTimerIsSet := fun x s =>
  ⟨_, exec_ldStVx x s, rfl, rfl, s.update_timers_onlyTimers s.dt (s.reg x)⟩

end Sys2Proof.Machine
end

section
namespace Sys2Proof.Machine

/-! ### What an instruction can do -/

/-- One constructor per way an instruction changes the state: which instructions it is open to, and the update. -/
inductive Effect (s : State) : Instr → State → Prop where
  | clear : Effect s .cls { s with fb := Frame.clear }
  | pop {a : Word} {rest : List Word} (h : s.stack = a :: rest) : Effect s .ret { s with stack := rest, ip := a }
  | call {i : Instr} (nnn : Addr) (hi : i = .sys nnn ∨ i = .call nnn) : Effect s i (s.call (addrWord nnn))
  | jump {i : Instr} (nnn : Addr) {a : Word} (hi : i = .jp nnn ∨ i = .jpV0 nnn) (ha : a.toNat ≤ 4350) :
      Effect s i (s.jump a)
  | skip {i : Instr} (x y : Reg) (nn : Byte) (c : Bool)
      (hi : i ∈ [Instr.seImm x nn, .sneImm x nn, .seReg x y, .sneReg x y]) : Effect s i (s.skipIf c)
  | setReg {i : Instr} (x y : Reg) (nn b : Byte)
      (hi : i ∈ [Instr.ldImm x nn, .addImm x nn, .ldReg x y, .orReg x y, .andReg x y, .xorReg x y, .ldVxDt x]) :
      Effect s i (s.setReg x b)
  | setResultFlag {i : Instr} (x y : Reg) (b c : Byte)
      (hi : i ∈ [Instr.addReg x y, .subReg x y, .shr x y, .subn x y, .shl x y]) : Effect s i (s.setResultFlag x b c)
  | random (x : Reg) (nn b : Byte) :
      Effect s (.rnd x nn) (({ s with draws := s.draws + 1 } : State).setReg x b)
  | setAddress {i : Instr} (x : Reg) (nnn : Addr) (a : Word) (hi : i ∈ [Instr.ldI nnn, .addI x, .ldF x]) :
      Effect s i { s with i := a }
  | store {i : Instr} (x : Reg) (a : Nat) (bs : List Byte) (hi : i = .ldB x ∨ i = .storeRegs x)
      (hm : a + bs.length ≤ Config.memSize) : Effect s i { s with mem := Mem.writeBytes s.mem a bs }
  | load (x : Reg) : Effect s (.loadRegs x) { s with v := s.loadedRegs x }
  | draw (x y : Reg) (n : Nibble) (fb : Frame) (c : Byte) :
      Effect s (.drw x y n) (({ s with fb := fb } : State).setReg flagReg c)
  | drawStops (x y : Reg) (n : Nibble) (fb : Frame) {e : Fatal} (he : DrawFault (some e)) :
      Effect s (.drw x y n) (({ s with fb := fb } : State).raise e)
  | suspend {i : Instr} {k : SuspendKind} (x : Reg) (hi : (i = .skp x ∧ k = .skipIfPressed) ∨
      (i = .sknp x ∧ k = .skipIfNotPressed) ∨ (i = .ldVxK x ∧ k = .waitForKey)) : Effect s i (s.suspend k x)
  | setDelay (x : Reg) : Effect s (.ldDtVx x) { s with dt := s.reg x }
  | setSound (x : Reg) : Effect s (.ldStVx x) { s with st := s.reg x }
  | raise {i : Instr} {e : Fatal} (x : Reg) (hi : i ∈ [Instr.ret, .ldF x, .ldB x, .storeRegs x, .loadRegs x])
      (he : ∀ n, e ≠ .invalidRegister n) : Effect s i (s.raise e)

/-- Every instruction answers a next state, and its effect is one of the above. -/
theorem exec_next_effect (i : Instr) (s : State) : ∃ t, exec i s = .next t ∧ Effect s i t := by
  cases i
  case cls => exact ⟨_, exec_cls s, .clear⟩
  case ret =>
    cases hs : s.stack with
    | nil => exact ⟨_, exec_ret_of_nil hs, .raise 0 (by simp) (by simp)⟩
    | cons a rest => exact ⟨_, exec_ret_of_cons hs, .pop hs⟩
  case sys nnn => exact ⟨_, exec_sys nnn s, .call nnn (.inl rfl)⟩
  case call nnn => exact ⟨_, exec_call nnn s, .call nnn (.inr rfl)⟩
  case jp nnn =>
    have ha : (addrWord nnn).toNat ≤ 4350 := by have := nnn.isLt; rw [addrWord_toNat]; omega
    exact ⟨_, exec_jp nnn s, .jump nnn (.inl rfl) ha⟩
  case jpV0 nnn =>
    have ha : (s.offsetTarget nnn).toNat ≤ 4350 := by
      have := nnn.isLt; have := (s.reg 0).isLt; rw [State.offsetTarget_toNat]; omega
    exact ⟨_, exec_jpV0 nnn s, .jump nnn (.inr rfl) ha⟩
  case seImm x nn => exact ⟨_, exec_seImm x nn s, .skip x 0 nn _ (by simp)⟩
  case sneImm x nn => exact ⟨_, exec_sneImm x nn s, .skip x 0 nn _ (by simp)⟩
  case seReg x y => exact ⟨_, exec_seReg x y s, .skip x y 0 _ (by simp)⟩
  case sneReg x y => exact ⟨_, exec_sneReg x y s, .skip x y 0 _ (by simp)⟩
  case ldImm x nn => exact ⟨_, exec_ldImm x nn s, .setReg x 0 nn _ (by simp)⟩
  case addImm x nn => exact ⟨_, exec_addImm x nn s, .setReg x 0 nn _ (by simp)⟩
  case ldReg x y => exact ⟨_, exec_ldReg x y s, .setReg x y 0 _ (by simp)⟩
  case orReg x y => exact ⟨_, exec_orReg x y s, .setReg x y 0 _ (by simp)⟩
  case andReg x y => exact ⟨_, exec_andReg x y s, .setReg x y 0 _ (by simp)⟩
  case xorReg x y => exact ⟨_, exec_xorReg x y s, .setReg x y 0 _ (by simp)⟩
  case ldVxDt x => exact ⟨_, exec_ldVxDt x s, .setReg x 0 0 _ (by simp)⟩
  case addReg x y => exact ⟨_, exec_addReg x y s, .setResultFlag x y _ _ (by simp)⟩
  case subReg x y => exact ⟨_, exec_subReg x y s, .setResultFlag x y _ _ (by simp)⟩
  case shr x y => exact ⟨_, exec_shr x y s, .setResultFlag x y _ _ (by simp)⟩
  case subn x y => exact ⟨_, exec_subn x y s, .setResultFlag x y _ _ (by simp)⟩
  case shl x y => exact ⟨_, exec_shl x y s, .setResultFlag x y _ _ (by simp)⟩
  case rnd x nn => exact ⟨_, exec_rnd x nn s, .random x nn _⟩
  case ldI nnn => exact ⟨_, exec_ldI nnn s, .setAddress 0 nnn _ (by simp)⟩
  case addI x => exact ⟨_, exec_addI x s, .setAddress x 0 _ (by simp)⟩
  case ldF x =>
    rcases Nat.lt_or_ge 15 (s.reg x).toNat with h | h
    · exact ⟨_, exec_ldF_of_lt h, .raise x (by simp) (by simp)⟩
    · exact ⟨_, exec_ldF_of_le h, .setAddress x 0 _ (by simp)⟩
  case ldB x =>
    rcases Nat.lt_or_ge (s.effAddr 2) Config.memSize with h | h
    · exact ⟨_, exec_ldB_of_lt h, .store x _ _ (.inl rfl) h⟩
    · exact ⟨_, exec_ldB_of_le h, .raise x (by simp) (by simp [State.outOfMemory])⟩
  case storeRegs x =>
    rcases Nat.lt_or_ge (s.effAddr x.val) Config.memSize with h | h
    · exact ⟨_, exec_storeRegs_of_lt h, .store x _ _ (.inr rfl) (by rw [State.regBytes_length]; exact h)⟩
    · exact ⟨_, exec_storeRegs_of_le h, .raise x (by simp) (by simp [State.outOfMemory])⟩
  case loadRegs x =>
    rcases Nat.lt_or_ge (s.effAddr x.val) Config.memSize with h | h
    · exact ⟨_, exec_loadRegs_of_lt h, .load x⟩
    · exact ⟨_, exec_loadRegs_of_le h, .raise x (by simp) (by simp [State.outOfMemory])⟩
  case drw x y n =>
    have hfault := s.drawSprite_fault (s.reg x).toNat (s.reg y).toNat n.toNat
    cases ha : (s.drawSprite (s.reg x).toNat (s.reg y).toNat n.toNat).abort with
    | none => exact ⟨_, execDrw_of_none rfl ha, .draw x y n _ _⟩
    | some e => exact ⟨_, execDrw_of_some rfl ha, .drawStops x y n _ (ha ▸ hfault)⟩
  case skp x => exact ⟨_, exec_skp x s, .suspend x (.inl ⟨rfl, rfl⟩)⟩
  case sknp x => exact ⟨_, exec_sknp x s, .suspend x (.inr (.inl ⟨rfl, rfl⟩))⟩
  case ldVxK x => exact ⟨_, exec_ldVxK x s, .suspend x (.inr (.inr ⟨rfl, rfl⟩))⟩
  case ldDtVx x => exact ⟨_, exec_ldDtVx x s, .setDelay x⟩
  case ldStVx x => exact ⟨_, exec_ldStVx x s, .setSound x⟩

/-- The inversion of `exec`: the state an instruction answers is one of its effects. -/
theorem exec_effect {i : Instr} {s t : State} (h : exec i s = .next t) : Effect s i t := by
  obtain ⟨u, hu, heff⟩ := exec_next_effect i s
  cases h.symm.trans hu
  exact heff

/-- Settles O9: each instruction's own equation gives its next state. -/
theorem everyInstructionAnswersNext : Obligations.EveryInstructionAnswersNext := fun i s =>
  (exec_next_effect i s).imp fun _ h => h.1

end Sys2Proof.Machine
end

section
namespace Sys2Proof.Machine

/-! ### Which instructions change what (spec/20_memory.md section 1, spec/10_state.md, spec/44_display.md) -/

/-- Settles O49: among the effects only a register write, a flag write, a draw and a block load reach `V[15]`, the first
and the last only where the destination is register 15. -/
theorem flagChangesOnlyByListedInstructions : Obligations.FlagChangesOnlyByListedInstructions := by
  intro i s t hexec hne
  cases exec_effect hexec
  case setReg x y nn b hi =>
    have hx : (15 : Reg) = x := by
      by_contra hx
      exact hne (s.reg_setReg_ne b hx)
    subst hx
    refine .inr (.inr ⟨nn, y, ?_⟩)
    simp only [List.mem_cons, List.not_mem_nil, or_false] at hi ⊢
    tauto
  case random x nn b =>
    have hx : (15 : Reg) = x := by
      by_contra hx
      exact hne (State.reg_setReg_ne _ b hx)
    subst hx
    exact .inr (.inr ⟨nn, 0, by simp⟩)
  case load x =>
    have hx : (15 : Reg) ≤ x := by
      by_contra hx
      exact hne (by rw [State.reg_loadedRegs, if_neg hx])
    obtain rfl : x = 15 := le_antisymm (Fin.le_last x) hx
    exact .inr (.inr ⟨0, 0, by simp⟩)
  case setResultFlag x y b c hi => exact .inl ⟨x, y, hi⟩
  case draw x y n fb c => exact .inr (.inl ⟨x, y, n, rfl⟩)
  case skip => exact absurd (s.reg_skipIf _ 15) hne
  all_goals exact absurd rfl hne

/-- Settles O50: among the effects only a block store writes memory. -/
theorem memoryChangesOnlyByStores : Obligations.MemoryChangesOnlyByStores := by
  intro i s t a hexec hne
  cases exec_effect hexec
  case store x _ _ _ hi => exact ⟨x, hi⟩
  all_goals simp at hne

/-- Settles O51: among the effects only the clear and the two ends of a draw write the framebuffer. -/
theorem screenChangesOnlyByClearAndDraw : Obligations.ScreenChangesOnlyByClearAndDraw := by
  intro i s t off hexec hne
  cases exec_effect hexec
  case clear => exact .inl rfl
  case draw x y n fb c => exact .inr ⟨x, y, n, rfl⟩
  case drawStops x y n fb e he => exact .inr ⟨x, y, n, rfl⟩
  all_goals simp [State.cell] at hne

/-- Settles O52: a pop and a call write the stack, and one effect each `I`, `DT` and `ST`. -/
theorem specialRegistersChangeOnlyByTheirInstructions :
    Obligations.SpecialRegistersChangeOnlyByTheirInstructions := by
  intro i s t hexec
  cases exec_effect hexec
  case pop => simp
  case call nnn hi => exact ⟨fun _ => .inr ⟨nnn, hi⟩, by simp, by simp, by simp⟩
  case setAddress x nnn a hi =>
    refine ⟨by simp, fun _ => ?_, by simp, by simp⟩
    simp only [List.mem_cons, List.not_mem_nil, or_false] at hi
    exact hi.imp (fun h => ⟨nnn, h⟩) (fun h => ⟨x, h⟩)
  all_goals simp

/-- Settles O53: from a running state only the effect of a suspension leaves a pending status. -/
theorem onlyKeyInstructionsSuspend : Obligations.OnlyKeyInstructionsSuspend := by
  intro i s t k x hr hexec hp
  cases exec_effect hexec
  case suspend y hi => cases hp; exact hi
  all_goals simp [hr] at hp

/-! ### The sound timer is read by no instruction (spec/46_timers.md) -/

theorem State.skipIf_update_st (s : State) (c : Bool) (b : Byte) :
    ({ s with st := b } : State).skipIf c = { s.skipIf c with st := b } := by
  cases c <;> rfl

/-- Settles O48: in each case of `exec` the condition that selects it and the update it makes read other fields only. -/
theorem soundTimerIsNeverRead : Obligations.SoundTimerIsNeverRead := by
  intro i s t b h
  cases i
  case ret =>
    by_cases hs : s.stack = []
    · cases h.symm.trans (exec_ret_of_nil hs); exact exec_ret_of_nil hs
    · obtain ⟨a, rest, hs⟩ := List.exists_cons_of_ne_nil hs
      cases h.symm.trans (exec_ret_of_cons hs); exact exec_ret_of_cons (s := { s with st := b }) hs
  case ldF x =>
    rcases Nat.lt_or_ge 15 (s.reg x).toNat with hx | hx
    · cases h.symm.trans (exec_ldF_of_lt hx); exact exec_ldF_of_lt hx
    · cases h.symm.trans (exec_ldF_of_le hx); exact exec_ldF_of_le hx
  case ldB x =>
    rcases Nat.lt_or_ge (s.effAddr 2) Config.memSize with hm | hm
    · cases h.symm.trans (exec_ldB_of_lt hm); exact exec_ldB_of_lt hm
    · cases h.symm.trans (exec_ldB_of_le hm); exact exec_ldB_of_le hm
  case storeRegs x =>
    rcases Nat.lt_or_ge (s.effAddr x.val) Config.memSize with hm | hm
    · cases h.symm.trans (exec_storeRegs_of_lt hm); exact exec_storeRegs_of_lt hm
    · cases h.symm.trans (exec_storeRegs_of_le hm); exact exec_storeRegs_of_le hm
  case loadRegs x =>
    rcases Nat.lt_or_ge (s.effAddr x.val) Config.memSize with hm | hm
    · cases h.symm.trans (exec_loadRegs_of_lt hm); exact exec_loadRegs_of_lt hm
    · cases h.symm.trans (exec_loadRegs_of_le hm); exact exec_loadRegs_of_le hm
  case drw x y n =>
    cases ha : (s.drawSprite (s.reg x).toNat (s.reg y).toNat n.toNat).abort with
    | none => cases h.symm.trans (execDrw_of_none rfl ha); exact execDrw_of_none rfl ha
    | some e => cases h.symm.trans (execDrw_of_some rfl ha); exact execDrw_of_some rfl ha
  all_goals cases h
  case seImm | sneImm | seReg | sneReg => exact congrArg _ (s.skipIf_update_st _ b)
  all_goals rfl

/-! ### The invariant (spec/10_state.md sections 4 and 9) -/

/-- An instruction after a fetch leaves the invariant: what it can write to `ip`, to the stack and to memory keeps their
bounds, and after a suspension `ip` is still where the fetch left it. -/
theorem exec_inv {i : Instr} {s t : State} (hs : s.Inv) (hr : s.status = .running) (hf : s.Fetched)
    (h : exec i s = .next t) : t.Inv := by
  obtain ⟨hmem, hinit, -, -, hstack⟩ := hs
  obtain ⟨hlo, hhi⟩ := hf
  have hmax : 4096 ≤ 4350 := by decide
  have hip : s.ip.toNat ≤ 4350 := le_trans hhi hmax
  cases exec_effect h
  case pop a rest hsr =>
    obtain ⟨⟨-, ha⟩, hrest⟩ := List.forall_mem_cons.1 (hsr ▸ hstack)
    exact ⟨hmem, hinit, le_trans ha hmax, fun _ _ _ => ha, hrest⟩
  case call nnn hi =>
    have ha : (addrWord nnn).toNat ≤ 4096 := by have := nnn.isLt; rw [addrWord_toNat]; omega
    exact ⟨hmem, hinit, le_trans ha hmax, fun _ _ _ => ha, List.forall_mem_cons.2 ⟨⟨hlo, hhi⟩, hstack⟩⟩
  case jump nnn a ha hi => exact ⟨hmem, hinit, ha, fun _ _ hp => by simp [hr] at hp, hstack⟩
  case skip x y nn c hi =>
    have hskip : (s.skipIf c).ip.toNat ≤ 4350 := by
      rw [(s.skipIf_spec (p := c = true) Iff.rfl).1]
      split <;> omega
    exact ⟨by simpa using hmem, by simpa using hinit, hskip, fun _ _ hp => by simp [hr] at hp, by simpa using hstack⟩
  case store x a bs hm hi => exact ⟨Mem.wf_writeBytes hmem bs hm, hinit, hip, fun _ _ _ => hhi, hstack⟩
  all_goals exact ⟨hmem, hinit, hip, fun _ _ _ => hhi, hstack⟩

theorem State.raise_inv {s : State} (hs : s.Inv) (e : Fatal) : (s.raise e).Inv := by
  obtain ⟨hmem, hinit, hip, -, hstack⟩ := hs
  exact ⟨hmem, hinit, hip, fun _ _ hp => by simp at hp, hstack⟩

/-- A cycle keeps the invariant; `ip` stays below memory's end only where the fetch succeeded. -/
theorem runCycle_inv {s t : State} (hs : s.Inv) (hr : s.status = .running) (h : runCycle s = .next t) : t.Inv := by
  have hadv : s.ip.toNat + 1 < Config.memSize → s.advance.Fetched := fun hlt => by
    have : (s.ip + 2).toNat = s.ip.toNat + 2 := by simp only [Config.memSize] at hlt; bv_omega
    simp only [State.Fetched, State.advance_ip, this, Config.memSize] at hlt ⊢
    omega
  have hinv : s.ip.toNat + 1 < Config.memSize → s.advance.Inv := fun hlt =>
    have ⟨hmem, hinit, _, _, hstack⟩ := hs
    have hhi := (hadv hlt).2
    ⟨hmem, hinit, le_trans hhi (by decide : 4096 ≤ 4350), fun _ _ _ => hhi, hstack⟩
  rcases runCycle_cases h with ⟨-, rfl⟩ | ⟨w, hlt, -, -, rfl⟩ | ⟨w, i, hlt, -, -, hexec⟩
  · exact State.raise_inv hs _
  · exact State.raise_inv (hinv hlt) _
  · exact exec_inv (hinv hlt) hr (hadv hlt) hexec

theorem resetEvent_inv {s : State} (hs : s.Inv) : (resetEvent s).Inv := by
  obtain ⟨-, hinit, -, -, -⟩ := hs
  exact ⟨hinit, hinit, (by decide : 0x200 ≤ 4350), fun _ _ _ => (by decide : 0x200 ≤ 4096),
    fun _ ha => absurd ha List.not_mem_nil⟩

theorem loadEvent_inv {s : State} (hs : s.Inv) (bytes : List Byte) : (loadEvent bytes s).Inv := by
  obtain ⟨hmem, hinit, hip, hpend, hstack⟩ := hs
  have hlen : Config.loadAddr + (bytes.take Config.loadCapacity).length ≤ Config.memSize := by
    simp only [Config.loadAddr, Config.loadCapacity, Config.memSize, List.length_take]
    omega
  exact ⟨Mem.wf_writeBytes hmem _ hlen, hinit, hip, hpend, hstack⟩

/-- The end of a suspension: `ip` was not above 4096 while it lasted. -/
theorem resolveSkipEvent_inv {s : State} (hs : s.Inv) {kind : SuspendKind} {x : Reg} (hp : s.status = .pending kind x)
    (held : Bool) : (resolveSkipEvent kind held s).Inv := by
  obtain ⟨hmem, hinit, -, hpend, hstack⟩ := hs
  have hhi := hpend kind x hp
  have hskip : (s.skipIf (skipHolds kind held)).ip.toNat ≤ 4350 := by
    rw [(s.skipIf_spec (p := skipHolds kind held = true) Iff.rfl).1]
    split <;> omega
  exact ⟨by simpa [resolveSkipEvent] using hmem, by simpa [resolveSkipEvent] using hinit, hskip,
    fun _ _ hq => by simp [resolveSkipEvent] at hq, by simpa [resolveSkipEvent] using hstack⟩

theorem resolveKeyEvent_inv {s : State} (hs : s.Inv) (k : Nibble) (x : Reg) : (resolveKeyEvent k x s).Inv := by
  obtain ⟨hmem, hinit, hip, -, hstack⟩ := hs
  exact ⟨hmem, hinit, hip, fun _ _ hp => by simp [resolveKeyEvent] at hp, hstack⟩

theorem event_inv {e : Event} {s t : State} (hs : s.Inv) (h : event e s = .next t) : t.Inv := by
  rcases event_cases h with ⟨-, rfl⟩ | ⟨bytes, -, -, -, rfl⟩ | ⟨-, hr, hc⟩ | ⟨k, x, -, -, rfl⟩ |
    ⟨held, kind, x, -, -, hp, rfl⟩ | ⟨-, rfl⟩ | ⟨-, rfl⟩
  · exact resetEvent_inv hs
  · exact loadEvent_inv hs bytes
  · exact runCycle_inv (s := { s with loadOpen := false }) hs hr hc
  · exact resolveKeyEvent_inv hs k x
  · exact resolveSkipEvent_inv hs hp held
  · exact hs
  · exact hs

/-- Settles O59: a step is one event, or one more moment of a wait, and the invariant reads neither the script nor the
count of free values, which a step changes beside. -/
theorem stepKeepsInvariant : Obligations.StepKeepsInvariant := by
  intro s t hs h
  rcases step_cases h with ⟨e, rest, -, he⟩ | ⟨-, -, he⟩ | ⟨-, -, e, -, he⟩ | ⟨-, -, rfl⟩
  · exact event_inv (s := { s with script := rest }) hs he
  · exact event_inv hs he
  · exact event_inv (s := waitOn s) hs he
  · exact hs

/-- Settles O60: at reset memory lists nothing, the stack is empty and `ip` is 0x200. -/
theorem resetMeetsInvariant : Obligations.ResetMeetsInvariant :=
  ⟨reset_mem_wf, Mem.wf_nil, by decide, fun _ _ _ => by decide, fun _ ha => absurd ha List.not_mem_nil⟩

end Sys2Proof.Machine
end

section
namespace Sys2Proof.Machine

/-! ### The cycle (spec/20_memory.md section 4) -/

theorem event_cycle_of_running {s : State} (h : s.status = .running) :
    event .cycle s = runCycle { s with loadOpen := false } :=
  if_pos h

/-- The step of a running core whose next event is a cycle, scripted or not. -/
theorem step_cycle {s : State} {rest : List Event} (hs : s.script = [] ∧ rest = [] ∨ s.script = .cycle :: rest)
    (hr : s.status = .running) : step s = runCycle { s with loadOpen := false, script := rest } := by
  rcases hs with ⟨hs, rfl⟩ | hs
  · rw [step_running hs hr, ← hs]
  · rw [step, nextEvent, hs]
    exact event_cycle_of_running (s := { s with script := rest }) hr

theorem runCycle_of_le {s : State} (h : Config.memSize ≤ s.ip.toNat + 1) :
    runCycle s = .next (s.raise (.memoryOutOfBounds (max s.ip.toNat Config.memSize))) := by
  simp only [runCycle, State.fetch_of_le h]

theorem runCycle_of_illegal {s : State} {w : Word} (hf : s.fetch = .ok w) (hd : decode w = none) :
    runCycle s = .next (s.advance.raise (.illegalInstruction w)) := by
  simp only [runCycle, hf, hd]

/-- Settles O6: the step is the cycle (R55), and the word fetched is the two bytes joined. -/
theorem stepRunsDecodedInstruction : Obligations.StepRunsDecodedInstruction := by
  intro s i rest hs hr hip hd
  rw [step_cycle hs hr]
  exact runCycle_of_decode (s := { s with loadOpen := false, script := rest }) (State.fetch_of_lt hip) hd

/-- Settles O7: the fetch fails and is raised on the state it was tried in (R53). -/
theorem fetchOutsideMemoryHalts : Obligations.FetchOutsideMemoryHalts := by
  intro s hr hip
  have hle : Config.memSize ≤ s.ip.toNat + 1 := by simp only [Config.memSize]; omega
  exact ⟨_, (event_cycle_of_running hr).trans (runCycle_of_le hle), rfl, State.update_status_onlyStatus _ _⟩

/-- Settles O8: an illegal word is raised on the advanced state (R75, R203). -/
theorem illegalWordHalts : Obligations.IllegalWordHalts := by
  intro s w hr hf hd
  exact ⟨_, (event_cycle_of_running hr).trans (runCycle_of_illegal (s := { s with loadOpen := false }) hf hd), rfl,
    State.update_status_onlyStatus _ _⟩

/-- The word of a jump to an address below 4096 is `0x1000` plus the address. -/
theorem decode_jump_word {a : Word} (h : a.toNat < 4096) : decode (0x1000#16 + a) = some (.jp (a.setWidth 12)) := by
  have hw : encode (.jp (a.setWidth 12)) = 0x1000#16 + a := by
    apply BitVec.eq_of_toNat_eq
    simp only [encode, toNat_encodeA, BitVec.ofNat_eq_ofNat, BitVec.toNat_setWidth, BitVec.toNat_add, BitVec.toNat_ofNat]
    omega
  rw [← hw]
  exact decodeOfEncode _ rfl

/-- Settles O11: the cycle decodes the jump to `ip`, which undoes the advance (R245). -/
theorem endedRunIsFixed : Obligations.EndedRunIsFixed := by
  rintro s ⟨hr, hip, hf⟩ hs
  have htarget : addrWord (s.ip.setWidth 12) = s.ip := by
    apply BitVec.eq_of_toNat_eq
    rw [addrWord_toNat, BitVec.toNat_setWidth]
    omega
  rw [step_running hs hr,
    runCycle_of_decode (s := { s with loadOpen := false }) hf (decode_jump_word (by omega)), exec_jp, htarget]
  rfl

end Sys2Proof.Machine
end

section
namespace Sys2Proof.Machine

/-! ### Timers and resolutions (spec/45_keys.md, spec/46_timers.md) -/

theorem event_tick (s : State) : event .tick s = .next (tickEvent s) := rfl

theorem tickEvent_onlyTimers (s : State) : OnlyTimers s (tickEvent s) := s.update_timers_onlyTimers _ _

theorem OnlyTimers.refl (s : State) : OnlyTimers s s := s.update_timers_onlyTimers s.dt s.st

theorem timerDown_toNat (b : Byte) : (timerDown b).toNat = if 0 < b.toNat then b.toNat - 1 else 0 := by
  unfold timerDown
  split
  · bv_omega
  · rfl

/-- Settles O47: the tick is one write to both timers, of each one lowered (R173). -/
theorem tickLowersBothTimers : Obligations.TickLowersBothTimers := fun s =>
  ⟨_, event_tick s, timerDown_toNat _, timerDown_toNat _, tickEvent_onlyTimers s⟩

theorem event_resolveKey_of_waiting {s : State} {x : Reg} (k : Nibble) (h : s.status = .pending .waitForKey x) :
    event (.resolveKey k) s = .next (resolveKeyEvent k x s) := by
  simp only [event, h]

theorem event_resolveSkip_of_pending {s : State} {kind : SuspendKind} {x : Reg} (held : Bool)
    (h : s.status = .pending kind x) (hk : kind ≠ .waitForKey) :
    event (.resolveSkip held) s = .next (resolveSkipEvent kind held s) := by
  cases kind
  case waitForKey => exact absurd rfl hk
  all_goals simp only [event, h]

/-- Settles O40: the answer is one register write and the end of the suspension (R164); without a wait for a key the event
has no other case. -/
theorem resolveKeyStoresCode : Obligations.ResolveKeyStoresCode := by
  refine fun k s => ⟨fun x h => ?_, fun h => ?_⟩
  · have hreg : ((s.setReg x (k.setWidth 8)).reg x).toNat = k.toNat := by
      rw [State.reg_setReg_same, BitVec.toNat_setWidth_of_le (by decide)]
    exact ⟨_, event_resolveKey_of_waiting k h, rfl, hreg, fun r => s.reg_setReg_ne _, State.update_v_onlyRegs _ _⟩
  · -- `h` rules out the one status that enables the event
    simp only [event]

/-- The end of a suspension and the skip write different fields. -/
theorem State.resume_skipIf (s : State) (c : Bool) : (s.skipIf c).resume = s.resume.skipIf c := by cases c <;> rfl

/-- All that the resolution of a skip outcome does, with its condition as a proposition (R165). -/
theorem resolveSkipEvent_spec (s : State) {kind : SuspendKind} {held : Bool} {p : Prop} [Decidable p]
    (h : skipHolds kind held = true ↔ p) :
    (resolveSkipEvent kind held s).status = .running ∧
      (resolveSkipEvent kind held s).ip.toNat = (if p then (s.ip.toNat + 2) % 65536 else s.ip.toNat) ∧
      (resolveSkipEvent kind held s).stack = s.stack ∧
      OnlyControl { s with status := .running } (resolveSkipEvent kind held s) := by
  rw [resolveSkipEvent, State.resume_skipIf]
  exact ⟨State.skipIf_status _ _, s.resume.skipIf_spec h⟩

/-- Settles O42: the answer is a skip and the end of the suspension (R165); without a skip outcome the event has no other
case. -/
theorem resolveSkipAddsTwoUnderCondition : Obligations.ResolveSkipAddsTwoUnderCondition := by
  refine fun held s => ⟨fun x h => ?_, fun x h => ?_, fun h => ?_⟩
  · exact ⟨_, event_resolveSkip_of_pending held h (by decide), resolveSkipEvent_spec s Iff.rfl⟩
  · exact ⟨_, event_resolveSkip_of_pending held h (by decide), resolveSkipEvent_spec s (by simp [skipHolds])⟩
  · simp only [event]
    split
    · next x hp => exact absurd hp (h x).1
    · next x hp => exact absurd hp (h x).2
    · rfl

/-- A skip reads and writes `ip` only, a tick the timers only. -/
theorem tickEvent_skipIf (s : State) (c : Bool) : tickEvent (s.skipIf c) = (tickEvent s).skipIf c := by cases c <;> rfl

/-- Settles O43: a tick keeps the status that enables a resolution, and the two write different fields. -/
theorem tickCommutesWithResolution : Obligations.TickCommutesWithResolution := by
  rintro s t e (⟨k, rfl⟩ | ⟨held, rfl⟩) h
  all_goals
    refine ⟨_, event_tick s, ?_⟩
    rcases event_cases h with ⟨he, -⟩ | ⟨_, he, -⟩ | ⟨he, -⟩ | ⟨k', x, he, hp, rfl⟩ | ⟨held', kind, x, he, hk, hp, rfl⟩ |
      ⟨he, -⟩ | ⟨he, -⟩ <;> cases he
  · rw [event_tick, event_resolveKey_of_waiting (s := tickEvent s) k hp]
    rfl
  · rw [event_tick, event_resolveSkip_of_pending (s := tickEvent s) held hp hk]
    exact congrArg (fun u : State => Host.Outcome.next u.resume) (tickEvent_skipIf s _).symm

end Sys2Proof.Machine
end

section
namespace Sys2Proof.Machine

/-! ### Waiting and halted cores (spec/45_keys.md R166, spec/60_exceptions.md R208) -/

/-- On a core that does not run, an event other than a resolution of what it waits for and a reset moves at most the
timers. -/
theorem event_of_not_running {e : Event} {s t : State} (h : event e s = .next t) (hr : s.status ≠ .running)
    (hreset : e ≠ .reset) :
    (∃ k x, e = .resolveKey k ∧ s.status = .pending .waitForKey x) ∨
    (∃ held kind x, e = .resolveSkip held ∧ kind ≠ .waitForKey ∧ s.status = .pending kind x) ∨
    (t.status = s.status ∧ OnlyTimers s t) := by
  rcases event_cases h with ⟨he, -⟩ | ⟨_, -, hr', -⟩ | ⟨-, hr', -⟩ | ⟨k, x, he, hp, -⟩ | ⟨held, kind, x, he, hk, hp, -⟩ |
    ⟨-, rfl⟩ | ⟨-, rfl⟩
  · exact absurd he hreset
  · exact absurd hr' hr
  · exact absurd hr' hr
  · exact .inl ⟨k, x, he, hp⟩
  · exact .inr (.inl ⟨held, kind, x, he, hk, hp⟩)
  · exact .inr (.inr ⟨rfl, tickEvent_onlyTimers s⟩)
  · exact .inr (.inr ⟨rfl, .refl _⟩)

/-- Settles O41: while a key is awaited no skip outcome is, so only an answer is left beside the events that move at most
the timers; an unscripted step is an answer or a longer wait by the free value (R166). -/
theorem waitEndsOnlyByAnswerOrReset : Obligations.WaitEndsOnlyByAnswerOrReset := by
  intro s x hw
  refine ⟨fun e t h hkey hreset => ?_, fun hs => ?_⟩
  · rcases event_of_not_running h (by simp [hw]) hreset with ⟨k, _, he, -⟩ | ⟨_, kind, _, -, hk, hp⟩ | ⟨hst, hframe⟩
    · exact absurd he (hkey k)
    · cases hp.symm.trans hw
      exact absurd rfl hk
    · exact ⟨hst.trans hw, hframe⟩
  · rw [step_waiting hs hw]
    split
    · exact .inr ⟨_, rfl⟩
    · exact .inl rfl

theorem step_halted {s : State} {err : Fatal} (hs : s.script = []) (hh : s.status = .halted err) :
    step s = .fault (.halted err) := by
  simp only [step, nextEvent, hs, unscriptedEvent, hh]

/-- Settles O58: a halted core waits for nothing, so only the events that move at most the timers are left. -/
theorem haltIsFinal : Obligations.HaltIsFinal := by
  intro s err hh
  refine ⟨fun e t h hreset => ?_, fun hs => step_halted hs hh⟩
  rcases event_of_not_running h (by simp [hh]) hreset with ⟨_, _, -, hp⟩ | ⟨_, _, _, -, -, hp⟩ | ⟨hst, hframe⟩
  · cases hp.symm.trans hh
  · cases hp.symm.trans hh
  · exact ⟨hst.trans hh, hframe⟩

/-! ### InvalidRegister (spec/10_state.md section 2, D27) -/

theorem exec_status_of_invalidRegister {i : Instr} {s t : State} {n : Nat} (h : exec i s = .next t)
    (ht : t.status = .halted (.invalidRegister n)) : s.status = .halted (.invalidRegister n) := by
  cases exec_effect h
  case raise e x he hi =>
    cases ht
    exact absurd rfl (he n)
  case drawStops x y k fb e he =>
    cases ht
    rcases he _ rfl with ⟨_, h⟩ | ⟨_, h⟩ <;> cases h
  case suspend => cases ht
  all_goals simpa using ht

theorem runCycle_status_of_invalidRegister {s t : State} {n : Nat} (h : runCycle s = .next t)
    (ht : t.status = .halted (.invalidRegister n)) : s.status = .halted (.invalidRegister n) := by
  rcases runCycle_cases h with ⟨-, rfl⟩ | ⟨w, -, -, -, rfl⟩ | ⟨w, i, -, -, -, hexec⟩
  · cases ht
  · cases ht
  · exact exec_status_of_invalidRegister (s := s.advance) hexec ht

theorem event_status_of_invalidRegister {e : Event} {s t : State} {n : Nat} (h : event e s = .next t)
    (ht : t.status = .halted (.invalidRegister n)) : s.status = .halted (.invalidRegister n) := by
  rcases event_cases h with ⟨-, rfl⟩ | ⟨_, -, -, -, rfl⟩ | ⟨-, -, hc⟩ | ⟨_, _, -, -, rfl⟩ | ⟨_, _, _, -, -, -, rfl⟩ |
    ⟨-, rfl⟩ | ⟨-, rfl⟩
  · cases ht
  · exact ht
  · exact runCycle_status_of_invalidRegister (s := { s with loadOpen := false }) hc ht
  · cases ht
  · cases ht
  · exact ht
  · exact ht

/-- Settles O54: no effect of an instruction raises it, nor does a fetch or an illegal word, and the other events raise
nothing. -/
theorem invalidRegisterIsNeverRaised : Obligations.InvalidRegisterIsNeverRaised := by
  intro s t n h ht
  rcases step_cases h with ⟨e, rest, -, he⟩ | ⟨-, -, he⟩ | ⟨-, -, e, -, he⟩ | ⟨-, -, rfl⟩
  · exact event_status_of_invalidRegister (s := { s with script := rest }) he ht
  · exact event_status_of_invalidRegister he ht
  · exact event_status_of_invalidRegister (s := waitOn s) he ht
  · exact ht

end Sys2Proof.Machine
end

section
namespace Sys2Proof.Machine

/-! ### Reset and load (spec/70_reset_and_hazards.md) -/

theorem Init.read_withMemory_font (p : Init) (font : Vector Byte 80) (rest : Vector Byte 4016) (a : Fin 80) :
    Mem.read (p.withMemory font rest).mem a.val = font[a] := by
  have hlen : a.val < font.toList.length := by simp
  rw [Init.read_withMemory, if_pos (by omega), List.getD_append _ _ _ _ hlen]
  simp

theorem Init.read_withMemory_rest (p : Init) (font : Vector Byte 80) (rest : Vector Byte 4016) (a : Fin 4016) :
    Mem.read (p.withMemory font rest).mem (80 + a.val) = rest[a] := by
  have hlen : font.toList.length ≤ 80 + a.val := by simp
  rw [Init.read_withMemory, if_pos (by omega), List.getD_append_right _ _ _ _ hlen]
  simp

/-- Settles O55: `Reset` copies the parameters, and parameters given byte by byte read back as the bytes given. -/
theorem resetLeavesInitialState : Obligations.ResetLeavesInitialState := by
  refine ⟨fun s p font rest hp => ?_, fun _ _ => step_init, resetWith_default.symm⟩
  have hreset : resetEvent s =
      { State.resetWith (p.withMemory font rest) with script := s.script, draws := s.draws } := by
    rw [resetEvent, hp]
  exact ⟨_, (event_reset s).trans (congrArg _ hreset), rfl, p.read_withMemory_font font rest,
    p.read_withMemory_rest font rest, fun _ => rfl, rfl, rfl, rfl, fun _ => rfl, rfl, rfl, rfl,
    p.withMemory_wf font rest, hp.symm, rfl, rfl⟩

theorem event_load_of_closed {s : State} (bytes : List Byte) (h : s.status ≠ .running ∨ s.loadOpen = false) :
    event (.load bytes) s = .fault (.notEnabled (.load bytes)) := by
  refine if_neg fun ⟨hr, ho⟩ => ?_
  rcases h with h | h
  · exact h hr
  · simp [ho] at h

/-- What memory reads as after a load: the image's first 3584 bytes from 0x200 on, the rest as before. -/
theorem loadEvent_read (bytes : List Byte) (s : State) (a : Nat) :
    Mem.read (loadEvent bytes s).mem a =
      if 0x200 ≤ a ∧ a < 0x200 + min bytes.length 3584 then (bytes.take 3584).getD (a - 0x200) 0
      else Mem.read s.mem a := by
  rw [loadEvent, Mem.read_writeBytes, List.length_take, Nat.min_comm]

/-- Settles O57: the load is one run of stores and closes the load window (R232). -/
theorem loadWritesTruncatedImage : Obligations.LoadWritesTruncatedImage := by
  intro s bytes
  refine ⟨fun hr ho => ⟨_, event_load_of_open bytes hr ho, fun k hk hcap => ?_, fun a ha => ?_,
    State.update_mem_onlyMemory _ _, fun again => event_load_of_closed again (.inr rfl)⟩, event_load_of_closed bytes⟩
  · have hlen : k < (bytes.take 3584).length := by rw [List.length_take]; omega
    rw [loadEvent_read, if_pos (by omega), Nat.add_sub_cancel_left, List.getD_eq_getElem _ _ hlen, List.getElem_take]
  · rw [loadEvent_read, if_neg (by omega)]

end Sys2Proof.Machine
end

section
namespace Sys2Proof.Machine

/-! ### Sprite pixels in drawing order (spec/44_display.md R151) -/

/-- The offsets of the set bits of a sprite row in the columns before `c`. -/
def rowOffsetsBefore (b : Byte) (start c : Nat) : List Nat :=
  ((List.range c).filter (fun c' => b.getLsbD (7 - c'))).map (fun c' => start + c')

theorem mem_rowOffsetsBefore {b : Byte} {start c k : Nat} :
    k ∈ rowOffsetsBefore b start c ↔ ∃ c', c' < c ∧ b.getLsbD (7 - c') = true ∧ start + c' = k := by
  simp [rowOffsetsBefore, and_assoc]

theorem nodup_rowOffsetsBefore (b : Byte) (start c : Nat) : (rowOffsetsBefore b start c).Nodup :=
  (List.nodup_range.filter _).map (fun _ _ h => Nat.add_left_cancel h)

/-- A set bit's offset stands in its row after those of the columns before it. -/
theorem rowOffsets_split {b : Byte} (start : Nat) {c : Nat} (hc : c < 8) (hb : b.getLsbD (7 - c) = true) :
    ∃ rest, rowOffsets b start = rowOffsetsBefore b start c ++ (start + c) :: rest := by
  have hrange : List.range 8 = List.range c ++ c :: (List.range (8 - (c + 1))).map (fun i => c + 1 + i) := by
    rw [show 8 = (c + 1) + (8 - (c + 1)) by omega, List.range_add, List.range_succ]
    simp
  rw [rowOffsets, hrange, List.filter_append, List.filter_cons_of_pos (by simpa using hb), List.map_append]
  exact ⟨_, rfl⟩

/-- The offsets of the set bits of the sprite's first `n` rows at the place that registers `x` and `y` give. -/
abbrev State.drwOffsets (s : State) (x y : Reg) (n : Nat) : List Nat :=
  s.spriteOffsets (s.reg x).toNat (s.reg y).toNat n

/-- The offsets of the sprite's set bits before pixel `(r, c)`, in drawing order. -/
def State.offsetsBefore (s : State) (x y : Reg) (r c : Nat) : List Nat :=
  s.drwOffsets x y r ++
    rowOffsetsBefore (Mem.read s.mem (s.effAddr r)) (64 * ((s.reg y).toNat + r) + (s.reg x).toNat) c

theorem State.offsetsBefore_zero (s : State) (x y : Reg) (r : Nat) :
    s.offsetsBefore x y r 0 = s.drwOffsets x y r :=
  List.append_nil _

/-- They are the offsets that the set bits before `(r, c)` cover. -/
theorem State.mem_offsetsBefore {s : State} {x y : Reg} {r c k : Nat} (hc : c ≤ 8) :
    k ∈ s.offsetsBefore x y r c ↔ s.CoveredBefore x y r c k := by
  simp only [State.offsetsBefore, List.mem_append, State.mem_spriteOffsets, mem_rowOffsetsBefore, State.CoveredBefore,
    PixelBefore, State.spriteBit, State.spriteOffset, Nat.add_assoc]
  constructor
  · rintro (⟨r', c', hr, hc', hbit, hk⟩ | ⟨c', hc', hbit, hk⟩)
    · exact ⟨r', c', .inl hr, hc', hbit, hk⟩
    · exact ⟨r, c', .inr ⟨rfl, hc'⟩, by omega, hbit, hk⟩
  · rintro ⟨r', c', hr | ⟨rfl, hc'⟩, hc8, hbit, hk⟩
    · exact .inl ⟨r', c', hr, hc8, hbit, hk⟩
    · exact .inr ⟨c', hc', hbit, hk⟩

/-- No two pixels of one sprite share a cell. -/
theorem State.nodup_offsetsBefore (s : State) (x y : Reg) (r : Nat) {c : Nat} (hc : c ≤ 8) :
    (s.offsetsBefore x y r c).Nodup := by
  refine List.nodup_append.2 ⟨s.nodup_spriteOffsets _ _ r, nodup_rowOffsetsBefore _ _ c, ?_⟩
  rintro k hk k' hk' rfl
  obtain ⟨r', c', hr', hc', -, hrow⟩ := State.mem_spriteOffsets.1 hk
  obtain ⟨c'', hc'', -, hlast⟩ := mem_rowOffsetsBefore.1 hk'
  omega

section Drawable
variable {s : State} {x y : Reg} {r c : Nat} (h : s.DrawableBefore x y r c)
include h

/-- Where every pixel before `(r, c)` can be drawn, the rows before `r` lie in memory. -/
theorem State.DrawableBefore.effAddr_lt : ∀ r', r' < r → s.effAddr r' < Config.memSize := fun r' hr =>
  (h r' 0 (.inl hr) (by decide)).1

theorem State.DrawableBefore.offset_lt (hc : c ≤ 8) :
    ∀ o ∈ s.offsetsBefore x y r c, o < Config.fbCells := fun o ho => by
  obtain ⟨r', c', hbefore, hc', hbit, rfl⟩ := (State.mem_offsetsBefore hc).1 ho
  exact (h r' c' hbefore hc').2 hbit

end Drawable

/-- The draw of the sprite's set bits before pixel `(r, c)`. -/
def State.drawBefore (s : State) (x y : Reg) (r c : Nat) : Drawing :=
  (s.offsetsBefore x y r c).foldl Drawing.plot { fb := s.fb, hit := false, abort := none }

/-- Where those bits can be drawn, nothing stops it, and it toggles the cells they cover. -/
theorem State.drawBefore_spec {s : State} {x y : Reg} {r c : Nat} (h : s.DrawableBefore x y r c) (hc : c ≤ 8) :
    (s.drawBefore x y r c).abort = none ∧
      ∀ k, Frame.cell (s.drawBefore x y r c).fb k ≠ s.cell k ↔ s.CoveredBefore x y r c k := by
  obtain ⟨habort, hcell, -⟩ := Drawing.foldl_plot { fb := s.fb, hit := false, abort := none } rfl _
    (s.nodup_offsetsBefore x y r hc) (h.offset_lt hc)
  refine ⟨habort, fun k => ?_⟩
  have hk : Frame.cell (s.drawBefore x y r c).fb k = (s.cell k ^^ decide (k ∈ s.offsetsBefore x y r c)) := hcell k
  rw [hk, ← State.mem_offsetsBefore hc]
  by_cases hmem : k ∈ s.offsetsBefore x y r c <;> simp [hmem]

/-- Rows that lie in memory are drawn bit by bit. -/
theorem State.drawSprite_eq_drawBefore {s : State} {r : Nat} (x y : Reg)
    (hm : ∀ r', r' < r → s.effAddr r' < Config.memSize) :
    s.drawSprite (s.reg x).toNat (s.reg y).toNat r = s.drawBefore x y r 0 := by
  rw [s.drawSprite_eq _ _ r hm, State.drawBefore, State.offsetsBefore_zero]

/-- A draw comes to the set bit of pixel `(r, c)` when the bits before it are drawn. -/
theorem State.drawSprite_reaches {s : State} {x y : Reg} {r c n : Nat} (hr : r < n) (hc : c < 8)
    (hm : ∀ r', r' < r + 1 → s.effAddr r' < Config.memSize) (hbit : s.spriteBit r c = true) :
    ∃ (cols rows : List Nat), s.drawSprite (s.reg x).toNat (s.reg y).toNat n =
      rows.foldl (Drawing.row s (s.reg x).toNat (s.reg y).toNat)
        (cols.foldl Drawing.plot ((s.drawBefore x y r c).plot (s.spriteOffset x y r c))) := by
  obtain ⟨rows, hrows⟩ := s.drawSprite_split (s.reg x).toNat (s.reg y).toNat hr
  obtain ⟨cols, hcols⟩ := rowOffsets_split (64 * ((s.reg y).toNat + r) + (s.reg x).toNat) hc hbit
  refine ⟨cols, rows, ?_⟩
  rw [hrows, Drawing.row_of_lt (hm r (by omega)), hcols, s.drawSprite_eq _ _ r fun r' hr' => hm r' (by omega),
    ← List.foldl_append, ← List.append_assoc, List.foldl_append, List.foldl_cons, Nat.add_assoc]
  rfl

theorem exec_drw (x y : Reg) (n : Nibble) (s : State) : exec (.drw x y n) s = execDrw x y n s := rfl

/-- Settles O36: the draw reaches the bit, whose plot stops it; nothing more is drawn. -/
theorem drawOutsideScreenHalts : Obligations.DrawOutsideScreenHalts := by
  intro x y n s r c hr hc hm h hbit hoff
  obtain ⟨habort, hcell⟩ := State.drawBefore_spec h hc.le
  have hrows : ∀ r', r' < r + 1 → s.effAddr r' < Config.memSize := fun r' hr' => by
    rcases Nat.lt_succ_iff_lt_or_eq.1 hr' with hlt | rfl
    · exact h.effAddr_lt r' hlt
    · exact hm
  obtain ⟨cols, rows, hdraw⟩ := State.drawSprite_reaches (x := x) (y := y) hr hc hrows hbit
  rw [Drawing.plot_of_le habort hoff, Drawing.foldl_plot_of_abort rfl, Drawing.foldl_row_of_abort rfl] at hdraw
  exact ⟨_, (exec_drw x y n s).trans (execDrw_of_some hdraw rfl), State.raise_status _ _, hcell, fun _ => rfl,
    s.update_draw_onlyDraw s.v _ _⟩

/-- Settles O37: the rows before `r` are drawn, and reading row `r` stops the draw. -/
theorem drawOutsideMemoryHalts : Obligations.DrawOutsideMemoryHalts := by
  intro x y n s r hr hm h
  obtain ⟨habort, hcell⟩ := State.drawBefore_spec h (Nat.zero_le 8)
  obtain ⟨rows, hdraw⟩ := s.drawSprite_split (s.reg x).toNat (s.reg y).toNat hr
  rw [State.drawSprite_eq_drawBefore x y h.effAddr_lt, Drawing.row_of_le hm _ _ habort,
    Drawing.foldl_row_of_abort rfl] at hdraw
  exact ⟨_, (exec_drw x y n s).trans (execDrw_of_some hdraw rfl), State.raise_status _ _, hcell, fun _ => rfl,
    s.update_draw_onlyDraw s.v _ _⟩

end Sys2Proof.Machine
end

section
namespace Sys2Proof.Machine

/-! ### Draws that nothing stops -/

/-- The sprite of a draw fits: its rows lie in memory and its set bits in the framebuffer. -/
def State.SpriteFits (s : State) (x y : Reg) (n : Nat) : Prop :=
  (∀ r, r < n → s.effAddr r < Config.memSize) ∧
    ∀ o ∈ s.drwOffsets x y n, o < Config.fbCells

/-- DXYN on a sprite that fits: the cells of its offsets are toggled and the flag says whether one of them was on. -/
theorem exec_drw_of_fits {x y : Reg} {n : Nibble} {s : State} (h : s.SpriteFits x y n.toNat) :
    ∃ fb, exec (.drw x y n) s = .next (({ s with fb := fb } : State).setReg flagReg
        (flagByte ((s.drwOffsets x y n.toNat).any s.cell))) ∧
      ∀ k, Frame.cell fb k =
        (s.cell k ^^ decide (k ∈ s.drwOffsets x y n.toNat)) := by
  obtain ⟨habort, hcell, hhit⟩ := s.drawSprite_spec (s.reg x).toNat (s.reg y).toNat n.toNat h.1 h.2
  exact ⟨_, hhit ▸ (exec_drw x y n s).trans (execDrw_of_none rfl habort), hcell⟩

theorem State.mem_drwOffsets {s : State} {x y : Reg} {n k : Nat} :
    k ∈ s.drwOffsets x y n ↔ s.CoveredBefore x y n 0 k := by
  rw [← State.offsetsBefore_zero, State.mem_offsetsBefore (Nat.zero_le 8)]

/-- Settles O35: a drawable sprite fits, and its offsets are the cells it covers. -/
theorem drawTogglesCoveredCells : Obligations.DrawTogglesCoveredCells := by
  intro x y n s h
  have hfits : s.SpriteFits x y n.toNat :=
    ⟨h.effAddr_lt, fun o ho => h.offset_lt (Nat.zero_le 8) o (by rwa [State.offsetsBefore_zero])⟩
  obtain ⟨fb, hexec, hcell⟩ := exec_drw_of_fits hfits
  have hhit : (s.drwOffsets x y n.toNat).any s.cell = true ↔
      ∃ k, s.cell k = true ∧ s.CoveredBefore x y n.toNat 0 k := by
    simp only [List.any_eq_true, State.mem_drwOffsets, and_comm]
  refine ⟨_, hexec, fun k => ?_, fun hk => ?_, fun hk => ?_, fun r hr => State.reg_setReg_ne _ _ hr, rfl,
    s.update_draw_onlyDraw _ fb s.status⟩
  · rw [State.cell_setReg, State.cell_update_fb, hcell, ← State.mem_drwOffsets]
    by_cases hmem : k ∈ s.drwOffsets x y n.toNat <;> simp [hmem]
  · exact (State.reg_setReg_same _ _ _).trans (congrArg flagByte (hhit.2 hk))
  · exact (State.reg_setReg_same _ _ _).trans (congrArg flagByte (Bool.eq_false_iff.2 fun hany => hk (hhit.1 hany)))

/-! ### What a draw that nothing stopped says of its sprite -/

theorem Drawing.plot_abort_eq_none {d : Drawing} {o : Nat} (h : (d.plot o).abort = none) :
    d.abort = none ∧ o < Config.fbCells := by
  cases hd : d.abort with
  | some e => simp [Drawing.plot, hd] at h
  | none =>
    refine ⟨rfl, Nat.lt_of_not_le fun ho => ?_⟩
    simp [Drawing.plot_of_le hd ho] at h

theorem Drawing.foldl_plot_abort_eq_none {d : Drawing} {offs : List Nat} (h : (offs.foldl Drawing.plot d).abort = none) :
    d.abort = none ∧ ∀ o ∈ offs, o < Config.fbCells := by
  induction offs generalizing d with
  | nil => exact ⟨h, by simp⟩
  | cons o offs ih =>
    obtain ⟨hplot, hoffs⟩ := ih h
    obtain ⟨hd, ho⟩ := Drawing.plot_abort_eq_none hplot
    exact ⟨hd, List.forall_mem_cons.2 ⟨ho, hoffs⟩⟩

theorem Drawing.row_abort_eq_none {s : State} {col row r : Nat} {d : Drawing}
    (h : (Drawing.row s col row d r).abort = none) :
    d.abort = none ∧ s.effAddr r < Config.memSize ∧
      ∀ o ∈ rowOffsets (Mem.read s.mem (s.effAddr r)) (64 * (row + r) + col), o < Config.fbCells := by
  rcases Nat.lt_or_ge (s.effAddr r) Config.memSize with hm | hm
  · rw [Drawing.row_of_lt hm] at h
    obtain ⟨hd, hoffs⟩ := Drawing.foldl_plot_abort_eq_none h
    exact ⟨hd, hm, hoffs⟩
  · cases hd : d.abort with
    | some e => simp [Drawing.row_of_abort hd, hd] at h
    | none => simp [Drawing.row_of_le hm col row hd] at h

theorem Drawing.foldl_row_abort_eq_none {s : State} {col row : Nat} {rs : List Nat} {d : Drawing}
    (h : (rs.foldl (Drawing.row s col row) d).abort = none) :
    d.abort = none ∧ ∀ r ∈ rs, s.effAddr r < Config.memSize ∧
      ∀ o ∈ rowOffsets (Mem.read s.mem (s.effAddr r)) (64 * (row + r) + col), o < Config.fbCells := by
  induction rs generalizing d with
  | nil => exact ⟨h, by simp⟩
  | cons r rs ih =>
    obtain ⟨hrow, hrs⟩ := ih h
    obtain ⟨hd, hr⟩ := Drawing.row_abort_eq_none hrow
    exact ⟨hd, List.forall_mem_cons.2 ⟨hr, hrs⟩⟩

/-- If DXYN leads to a state that is not halted, its sprite fits. -/
theorem spriteFits_of_safe {x y : Reg} {n : Nibble} {s t : State} (h : exec (.drw x y n) s = .next t) (ht : t.Safe) :
    s.SpriteFits x y n.toNat := by
  cases ha : (s.drawSprite (s.reg x).toNat (s.reg y).toNat n.toNat).abort with
  | some e =>
    cases h.symm.trans (execDrw_of_some rfl ha)
    exact absurd rfl (ht e)
  | none =>
    obtain ⟨-, hrows⟩ := Drawing.foldl_row_abort_eq_none ha
    refine ⟨fun r hr => (hrows r (List.mem_range.2 hr)).1, fun o ho => ?_⟩
    obtain ⟨r, hr, hor⟩ := List.mem_flatMap.1 ho
    exact (hrows r hr).2 o hor

theorem flagByte_eq_one {c : Bool} : flagByte c = 1 ↔ c = true := by cases c <;> decide

/-- A draw that nothing stopped toggled its sprite's cells, and its flag is 1 when one of them was on. -/
theorem drw_of_safe {x y : Reg} {n : Nibble} {s t : State} (h : exec (.drw x y n) s = .next t) (ht : t.Safe) :
    (∀ k, t.cell k = (s.cell k ^^ decide (k ∈ s.drwOffsets x y n.toNat))) ∧
      (t.reg 15 = 1 ↔ (s.drwOffsets x y n.toNat).any s.cell = true) := by
  obtain ⟨fb, hexec, hcell⟩ := exec_drw_of_fits (spriteFits_of_safe h ht)
  cases h.symm.trans hexec
  exact ⟨hcell, by rw [State.reg_setReg_same, flagByte_eq_one]⟩

/-- It also kept the sprite and, outside the flag register, the coordinates. -/
theorem drw_keeps_sprite {x y : Reg} {n : Nibble} {s t : State} (hx : x ≠ 15) (hy : y ≠ 15)
    (h : exec (.drw x y n) s = .next t) (ht : t.Safe) :
    t.SpriteFits x y n.toNat ∧ t.drwOffsets x y n.toNat = s.drwOffsets x y n.toNat := by
  have hfits := spriteFits_of_safe h ht
  obtain ⟨fb, hexec, -⟩ := exec_drw_of_fits hfits
  cases h.symm.trans hexec
  have hoffs : ∀ c, (({ s with fb := fb } : State).setReg flagReg c).drwOffsets x y n.toNat = s.drwOffsets x y n.toNat :=
    fun c => by rw [State.drwOffsets, State.reg_setReg_ne _ _ hx, State.reg_setReg_ne _ _ hy]; rfl
  exact ⟨⟨hfits.1, (hoffs _).symm ▸ hfits.2⟩, hoffs _⟩

/-- Settles O38: the first draw keeps the sprite and its place, so the second toggles the same cells back, and its flag says
whether there is such a cell when all were off before the first. -/
theorem drawTwiceRestoresScreen : Obligations.DrawTwiceRestoresScreen := by
  intro x y n s t hx hy _ hfirst ht
  obtain ⟨hfits, hoffs⟩ := drw_keeps_sprite hx hy hfirst ht
  obtain ⟨u, hsecond, hu⟩ : ∃ u, exec (.drw x y n) t = .next u ∧ u.Safe :=
    (exec_drw_of_fits hfits).elim fun _ h => ⟨_, h.1, ht⟩
  obtain ⟨hcell, -⟩ := drw_of_safe hfirst ht
  obtain ⟨hcell', hflag⟩ := drw_of_safe hsecond hu
  rw [hoffs] at hcell' hflag
  refine ⟨u, hsecond, hu, fun k => ?_, fun hclear => ?_⟩
  · rw [hcell', hcell, Bool.xor_assoc, Bool.xor_self, Bool.xor_false]
  · have hdrawn : ∀ k, t.cell k = true ↔ k ∈ s.drwOffsets x y n.toNat := fun k => by simp [hcell, hclear]
    simp only [hflag, List.any_eq_true, hdrawn, and_self, State.mem_spriteOffsets, State.spriteBit]
    constructor
    · rintro ⟨k, r, c, hr, hc, hbit, -⟩
      exact ⟨r, c, hr, hc, hbit⟩
    · rintro ⟨r, c, hr, hc, hbit⟩
      exact ⟨_, r, c, hr, hc, hbit, rfl⟩

end Sys2Proof.Machine
end
